-- ==== Sys2Proof/Word.lean ====
section
/-! DEFINITION. The widths the spec gives the machine's values (R5, R10). Every value is unsigned (R8). -/

namespace Sys2Proof

/-- A 4-bit field: a register number, a row count, the stack pointer, a key number (R61, R19). -/
abbrev Nibble := BitVec 4

/-- One byte: a general register, a timer, a memory cell (R11, R20, R28). -/
abbrev Byte := BitVec 8

/-- An address literal `NNN` (R61). -/
abbrev Addr12 := BitVec 12

/-- A 16-bit word: `I`, `PC`, `IR`, a stack slot, an instruction word (R15, R16, R19, R27, R60). -/
abbrev Word := BitVec 16

/-- One row of the framebuffer, bit 63 the leftmost pixel (R23). -/
abbrev Scanline := BitVec 64

end Sys2Proof
end

