-- ==== Sys2Proof/Syntax.lean ====
section
/-! DEFINITION. The instruction set as data: one constructor per row of the opcode map (R64), in the table's order. Bits that a
row's pattern ignores (R65, R66) are fields too, so that a word can be given back from its instruction; no meaning reads them. -/

namespace Sys2Proof

/-- The 38 rows of the opcode map. `x` and `y` are register numbers, `n`, `nn` and `nnn` the literals of R61. -/
inductive Instr where
  /-- `0-E0` CLS; `x` is ignored. -/
  | cls (x : Nibble)
  /-- `0-EE` RET; `x` is ignored. -/
  | ret (x : Nibble)
  /-- `0NNN` SYS, the unsupported legacy call. -/
  | sys (nnn : Addr12)
  /-- `1NNN` JP NNN. -/
  | jp (nnn : Addr12)
  /-- `BNNN` JP V0, NNN. -/
  | jpV0 (nnn : Addr12)
  /-- `2NNN` CALL NNN. -/
  | call (nnn : Addr12)
  /-- `3XNN` SE Vx, NN. -/
  | seVxNN (x : Nibble) (nn : Byte)
  /-- `4XNN` SNE Vx, NN. -/
  | sneVxNN (x : Nibble) (nn : Byte)
  /-- `5XY-` SE Vx, Vy; `n` is ignored. -/
  | seVxVy (x y n : Nibble)
  /-- `9XY-` SNE Vx, Vy; `n` is ignored. -/
  | sneVxVy (x y n : Nibble)
  /-- `6XNN` LD Vx, NN. -/
  | ldVxNN (x : Nibble) (nn : Byte)
  /-- `7XNN` ADD Vx, NN. -/
  | addVxNN (x : Nibble) (nn : Byte)
  /-- `8XY0` LD Vx, Vy. -/
  | ldVxVy (x y : Nibble)
  /-- `8XY1` OR Vx, Vy. -/
  | orVxVy (x y : Nibble)
  /-- `8XY2` AND Vx, Vy. -/
  | andVxVy (x y : Nibble)
  /-- `8XY3` XOR Vx, Vy. -/
  | xorVxVy (x y : Nibble)
  /-- `8XY4` ADD Vx, Vy. -/
  | addVxVy (x y : Nibble)
  /-- `8XY5` SUB Vx, Vy. -/
  | subVxVy (x y : Nibble)
  /-- `8XY7` SUBN Vx, Vy. -/
  | subnVxVy (x y : Nibble)
  /-- `8XY6` SHR Vx, Vy. -/
  | shrVxVy (x y : Nibble)
  /-- `8XYE` SHL Vx, Vy. -/
  | shlVxVy (x y : Nibble)
  /-- `ANNN` LD I, NNN. -/
  | ldINNN (nnn : Addr12)
  /-- `CXNN` RND Vx, NN. -/
  | rndVxNN (x : Nibble) (nn : Byte)
  /-- `DXYN` DRW Vx, Vy, N. -/
  | drw (x y n : Nibble)
  /-- `EX9E` SKP Vx. -/
  | skp (x : Nibble)
  /-- `EXA1` SKNP Vx. -/
  | sknp (x : Nibble)
  /-- `FX07` LD Vx, DT. -/
  | ldVxDT (x : Nibble)
  /-- `FX0A` LD Vx, K. -/
  | ldVxK (x : Nibble)
  /-- `FX15` LD DT, Vx. -/
  | ldDTVx (x : Nibble)
  /-- `FX18` LD ST, Vx. -/
  | ldSTVx (x : Nibble)
  /-- `FX1E` ADD I, Vx. -/
  | addIVx (x : Nibble)
  /-- `FX29` LD F, Vx. -/
  | ldFVx (x : Nibble)
  /-- `FX33` LD B, Vx. -/
  | ldBVx (x : Nibble)
  /-- `FX55` LD [I], Vx. -/
  | ldMemVx (x : Nibble)
  /-- `FX65` LD Vx, [I]. -/
  | ldVxMem (x : Nibble)
  /-- `8---` RSV8, the reserved sub-codes of class 8; every field is ignored. -/
  | rsv8 (x y n : Nibble)
  /-- `E---` RSVE, the reserved sub-codes of class E; every field is ignored. -/
  | rsvE (x : Nibble) (nn : Byte)
  /-- `F---` RSVF, the reserved sub-codes of class F; every field is ignored. -/
  | rsvF (x : Nibble) (nn : Byte)
  deriving DecidableEq, Repr

end Sys2Proof
end

