-- ==== Sys2Proof/WellFormed.lean ====
section
/-! DEFINITION. Which terms of `Instr` stand for a word. A catch-all row of the opcode map is tried after the other rows of its
class (R64), so its key must be one that no earlier row takes. -/

namespace Sys2Proof

/-- The sub-codes `NN` of class 0 that have a row of their own (R67). -/
def class0Keys : List Byte := [0xE0, 0xEE]

/-- The sub-codes `N` of class 8 that have a row of their own (R66). -/
def class8Keys : List Nibble := [0x0, 0x1, 0x2, 0x3, 0x4, 0x5, 0x6, 0x7, 0xE]

/-- The sub-codes `NN` of class E that have a row of their own (R66). -/
def classEKeys : List Byte := [0x9E, 0xA1]

/-- The sub-codes `NN` of class F that have a row of their own (R66). -/
def classFKeys : List Byte := [0x07, 0x0A, 0x15, 0x18, 0x1E, 0x29, 0x33, 0x55, 0x65]

/-- The term stands for a word of its row: a catch-all row's sub-code is none of the listed ones (R66, R67); every other
constructor's fields are free. -/
def Instr.wf : Instr → Bool
  | .sys nnn => !class0Keys.contains (nnn.extractLsb' 0 8)
  | .rsv8 _ _ n => !class8Keys.contains n
  | .rsvE _ nn => !classEKeys.contains nn
  | .rsvF _ nn => !classFKeys.contains nn
  | .cls _ | .ret _ | .jp _ | .jpV0 _ | .call _ | .seVxNN _ _ | .sneVxNN _ _ | .seVxVy _ _ _ | .sneVxVy _ _ _
  | .ldVxNN _ _ | .addVxNN _ _ | .ldVxVy _ _ | .orVxVy _ _ | .andVxVy _ _ | .xorVxVy _ _ | .addVxVy _ _ | .subVxVy _ _
  | .subnVxVy _ _ | .shrVxVy _ _ | .shlVxVy _ _ | .ldINNN _ | .rndVxNN _ _ | .drw _ _ _ | .skp _ | .sknp _ | .ldVxDT _
  | .ldVxK _ | .ldDTVx _ | .ldSTVx _ | .addIVx _ | .ldFVx _ | .ldBVx _ | .ldMemVx _ | .ldVxMem _ => true

end Sys2Proof
end

