-- ==== Sys2Proof/Decode.lean ====
section
/-! DEFINITION. Instruction words: fields (R61), the two-level decoder (R63), the opcode map as the spec prints it (R64), the
encoder, and the decoder on bytes (R42). The decoder is written from R63's dispatch and the map is data beside it; that the two
agree on every word is a statement, not a definition. -/

namespace Sys2Proof

/-! ### Fields of a word (R61) -/

/-- `C`, bits 15..12: the class. -/
def fieldC (w : Word) : Nibble := w.extractLsb' 12 4
/-- `X`, bits 11..8. -/
def fieldX (w : Word) : Nibble := w.extractLsb' 8 4
/-- `Y`, bits 7..4. -/
def fieldY (w : Word) : Nibble := w.extractLsb' 4 4
/-- `N`, bits 3..0. -/
def fieldN (w : Word) : Nibble := w.extractLsb' 0 4
/-- `NN`, bits 7..0. -/
def fieldNN (w : Word) : Byte := w.extractLsb' 0 8
/-- `NNN`, bits 11..0. -/
def fieldNNN (w : Word) : Addr12 := w.extractLsb' 0 12

/-! ### Decoding a word (R63) -/

/-- Class 0 dispatches on `NN`; `X` is ignored by its two listed rows (R63, R65, D6). -/
def decodeClass0 (w : Word) : Instr :=
  if fieldNN w = 0xE0 then .cls (fieldX w)
  else if fieldNN w = 0xEE then .ret (fieldX w)
  else .sys (fieldNNN w)

/-- Class 8 dispatches on `N` (R63, R64 rows 13 to 21 and 36). -/
def decodeClass8 (w : Word) : Instr :=
  if fieldN w = 0x0 then .ldVxVy (fieldX w) (fieldY w)
  else if fieldN w = 0x1 then .orVxVy (fieldX w) (fieldY w)
  else if fieldN w = 0x2 then .andVxVy (fieldX w) (fieldY w)
  else if fieldN w = 0x3 then .xorVxVy (fieldX w) (fieldY w)
  else if fieldN w = 0x4 then .addVxVy (fieldX w) (fieldY w)
  else if fieldN w = 0x5 then .subVxVy (fieldX w) (fieldY w)
  else if fieldN w = 0x7 then .subnVxVy (fieldX w) (fieldY w)
  else if fieldN w = 0x6 then .shrVxVy (fieldX w) (fieldY w)
  else if fieldN w = 0xE then .shlVxVy (fieldX w) (fieldY w)
  else .rsv8 (fieldX w) (fieldY w) (fieldN w)

/-- Class E dispatches on `NN` (R63, R64 rows 25, 26 and 37). -/
def decodeClassE (w : Word) : Instr :=
  if fieldNN w = 0x9E then .skp (fieldX w)
  else if fieldNN w = 0xA1 then .sknp (fieldX w)
  else .rsvE (fieldX w) (fieldNN w)

/-- Class F dispatches on `NN` (R63, R64 rows 27 to 35 and 38). -/
def decodeClassF (w : Word) : Instr :=
  if fieldNN w = 0x07 then .ldVxDT (fieldX w)
  else if fieldNN w = 0x0A then .ldVxK (fieldX w)
  else if fieldNN w = 0x15 then .ldDTVx (fieldX w)
  else if fieldNN w = 0x18 then .ldSTVx (fieldX w)
  else if fieldNN w = 0x1E then .addIVx (fieldX w)
  else if fieldNN w = 0x29 then .ldFVx (fieldX w)
  else if fieldNN w = 0x33 then .ldBVx (fieldX w)
  else if fieldNN w = 0x55 then .ldMemVx (fieldX w)
  else if fieldNN w = 0x65 then .ldVxMem (fieldX w)
  else .rsvF (fieldX w) (fieldNN w)

/-- The decoder: first on the class, then, for classes 0, 8, E and F, on the sub-code (R63). It is total on all words; the
last arm is class 0xF, the only value of the four bits left. -/
def decode (w : Word) : Instr :=
  match (fieldC w).toNat with
  | 0x0 => decodeClass0 w
  | 0x1 => .jp (fieldNNN w)
  | 0x2 => .call (fieldNNN w)
  | 0x3 => .seVxNN (fieldX w) (fieldNN w)
  | 0x4 => .sneVxNN (fieldX w) (fieldNN w)
  | 0x5 => .seVxVy (fieldX w) (fieldY w) (fieldN w)
  | 0x6 => .ldVxNN (fieldX w) (fieldNN w)
  | 0x7 => .addVxNN (fieldX w) (fieldNN w)
  | 0x8 => decodeClass8 w
  | 0x9 => .sneVxVy (fieldX w) (fieldY w) (fieldN w)
  | 0xA => .ldINNN (fieldNNN w)
  | 0xB => .jpV0 (fieldNNN w)
  | 0xC => .rndVxNN (fieldX w) (fieldNN w)
  | 0xD => .drw (fieldX w) (fieldY w) (fieldN w)
  | 0xE => decodeClassE w
  | _ => decodeClassF w

/-! ### Encoding (R61, R64, R71) -/

/-- A word from its four nibbles, the class in bits 15..12. -/
def wordXYN (c x y n : Nibble) : Word := (c ++ x ++ y ++ n : BitVec (4 + 4 + 4 + 4))

/-- A word from class, `X` and `NN`. -/
def wordXNN (c x : Nibble) (nn : Byte) : Word := (c ++ x ++ nn : BitVec (4 + 4 + 8))

/-- A word from class and `NNN`. -/
def wordNNN (c : Nibble) (nnn : Addr12) : Word := (c ++ nnn : BitVec (4 + 12))

/-- The word of an instruction, by the pattern column of the opcode map (R64); bits the pattern ignores are the ones the
instruction carries. -/
def encode : Instr → Word
  | .cls x => wordXNN 0x0 x 0xE0
  | .ret x => wordXNN 0x0 x 0xEE
  | .sys nnn => wordNNN 0x0 nnn
  | .jp nnn => wordNNN 0x1 nnn
  | .jpV0 nnn => wordNNN 0xB nnn
  | .call nnn => wordNNN 0x2 nnn
  | .seVxNN x nn => wordXNN 0x3 x nn
  | .sneVxNN x nn => wordXNN 0x4 x nn
  | .seVxVy x y n => wordXYN 0x5 x y n
  | .sneVxVy x y n => wordXYN 0x9 x y n
  | .ldVxNN x nn => wordXNN 0x6 x nn
  | .addVxNN x nn => wordXNN 0x7 x nn
  | .ldVxVy x y => wordXYN 0x8 x y 0x0
  | .orVxVy x y => wordXYN 0x8 x y 0x1
  | .andVxVy x y => wordXYN 0x8 x y 0x2
  | .xorVxVy x y => wordXYN 0x8 x y 0x3
  | .addVxVy x y => wordXYN 0x8 x y 0x4
  | .subVxVy x y => wordXYN 0x8 x y 0x5
  | .subnVxVy x y => wordXYN 0x8 x y 0x7
  | .shrVxVy x y => wordXYN 0x8 x y 0x6
  | .shlVxVy x y => wordXYN 0x8 x y 0xE
  | .ldINNN nnn => wordNNN 0xA nnn
  | .rndVxNN x nn => wordXNN 0xC x nn
  | .drw x y n => wordXYN 0xD x y n
  | .skp x => wordXNN 0xE x 0x9E
  | .sknp x => wordXNN 0xE x 0xA1
  | .ldVxDT x => wordXNN 0xF x 0x07
  | .ldVxK x => wordXNN 0xF x 0x0A
  | .ldDTVx x => wordXNN 0xF x 0x15
  | .ldSTVx x => wordXNN 0xF x 0x18
  | .addIVx x => wordXNN 0xF x 0x1E
  | .ldFVx x => wordXNN 0xF x 0x29
  | .ldBVx x => wordXNN 0xF x 0x33
  | .ldMemVx x => wordXNN 0xF x 0x55
  | .ldVxMem x => wordXNN 0xF x 0x65
  | .rsv8 x y n => wordXYN 0x8 x y n
  | .rsvE x nn => wordXNN 0xE x nn
  | .rsvF x nn => wordXNN 0xF x nn

/-! ### The opcode map as printed (R64) -/

/-- A row of the opcode map: a word selects it when `word AND mask = pattern`. -/
structure OpcodeRow where
  number  : Nat
  pattern : Word
  mask    : Word
  deriving DecidableEq, Repr

/-- Rows 1 to 21 of R64, transcribed: number, match, mask. -/
def opcodeRows1to21 : List OpcodeRow :=
  [⟨1, 0x00E0, 0xF0FF⟩, ⟨2, 0x00EE, 0xF0FF⟩, ⟨3, 0x0000, 0xF000⟩, ⟨4, 0x1000, 0xF000⟩, ⟨5, 0xB000, 0xF000⟩,
   ⟨6, 0x2000, 0xF000⟩, ⟨7, 0x3000, 0xF000⟩, ⟨8, 0x4000, 0xF000⟩, ⟨9, 0x5000, 0xF000⟩, ⟨10, 0x9000, 0xF000⟩,
   ⟨11, 0x6000, 0xF000⟩, ⟨12, 0x7000, 0xF000⟩, ⟨13, 0x8000, 0xF00F⟩, ⟨14, 0x8001, 0xF00F⟩, ⟨15, 0x8002, 0xF00F⟩,
   ⟨16, 0x8003, 0xF00F⟩, ⟨17, 0x8004, 0xF00F⟩, ⟨18, 0x8005, 0xF00F⟩, ⟨19, 0x8007, 0xF00F⟩, ⟨20, 0x8006, 0xF00F⟩,
   ⟨21, 0x800E, 0xF00F⟩]

/-- Rows 22 to 38 of R64, transcribed: number, match, mask. -/
def opcodeRows22to38 : List OpcodeRow :=
  [⟨22, 0xA000, 0xF000⟩, ⟨23, 0xC000, 0xF000⟩, ⟨24, 0xD000, 0xF000⟩, ⟨25, 0xE09E, 0xF0FF⟩, ⟨26, 0xE0A1, 0xF0FF⟩,
   ⟨27, 0xF007, 0xF0FF⟩, ⟨28, 0xF00A, 0xF0FF⟩, ⟨29, 0xF015, 0xF0FF⟩, ⟨30, 0xF018, 0xF0FF⟩, ⟨31, 0xF01E, 0xF0FF⟩,
   ⟨32, 0xF029, 0xF0FF⟩, ⟨33, 0xF033, 0xF0FF⟩, ⟨34, 0xF055, 0xF0FF⟩, ⟨35, 0xF065, 0xF0FF⟩, ⟨36, 0x8000, 0xF000⟩,
   ⟨37, 0xE000, 0xF000⟩, ⟨38, 0xF000, 0xF000⟩]

/-- The 38 rows, in the order in which they are tried (R64). -/
def opcodeMap : List OpcodeRow := opcodeRows1to21 ++ opcodeRows22to38

/-- The number of the first row a word matches: "rows are tried in the order of this table and the first that matches wins"
(R64). -/
def firstMatchingRow (w : Word) : Option Nat :=
  (opcodeMap.find? fun r => w &&& r.mask == r.pattern).map OpcodeRow.number

/-- The number of the row an instruction stands for (R64). -/
def Instr.rowNumber : Instr → Nat
  | .cls _ => 1 | .ret _ => 2 | .sys _ => 3 | .jp _ => 4 | .jpV0 _ => 5 | .call _ => 6
  | .seVxNN _ _ => 7 | .sneVxNN _ _ => 8 | .seVxVy _ _ _ => 9 | .sneVxVy _ _ _ => 10
  | .ldVxNN _ _ => 11 | .addVxNN _ _ => 12 | .ldVxVy _ _ => 13 | .orVxVy _ _ => 14 | .andVxVy _ _ => 15
  | .xorVxVy _ _ => 16 | .addVxVy _ _ => 17 | .subVxVy _ _ => 18 | .subnVxVy _ _ => 19 | .shrVxVy _ _ => 20
  | .shlVxVy _ _ => 21 | .ldINNN _ => 22 | .rndVxNN _ _ => 23 | .drw _ _ _ => 24 | .skp _ => 25 | .sknp _ => 26
  | .ldVxDT _ => 27 | .ldVxK _ => 28 | .ldDTVx _ => 29 | .ldSTVx _ => 30 | .addIVx _ => 31 | .ldFVx _ => 32
  | .ldBVx _ => 33 | .ldMemVx _ => 34 | .ldVxMem _ => 35 | .rsv8 _ _ _ => 36 | .rsvE _ _ => 37 | .rsvF _ _ => 38

/-! ### Bytes (R42) -/

/-- The word of two bytes as memory holds them: big-endian, the byte at the lower address first (R42). -/
def wordOfBytes (hi lo : Byte) : Word := (hi ++ lo : BitVec (8 + 8))

/-- The byte of a word that lies at the lower address (R42, R61). -/
def highByte (w : Word) : Byte := w.extractLsb' 8 8

/-- The byte of a word that lies at the higher address (R42, R61). -/
def lowByte (w : Word) : Byte := w.extractLsb' 0 8

/-- Why bytes are no instruction. -/
inductive DecodeReject where
  /-- Fewer than two bytes: every instruction is exactly two (R60). -/
  | tooFewBytes
  deriving DecidableEq, Repr

/-- The decoder on bytes: takes the first two and gives back the rest. It is total; no two bytes are refused (R60, R63). -/
def decodeBytes : List Byte → Except DecodeReject (Instr × List Byte)
  | hi :: lo :: rest => .ok (decode (wordOfBytes hi lo), rest)
  | [_] | [] => .error .tooFewBytes

/-- The instruction's two bytes, the lower address first. -/
def encodeBytes (i : Instr) : List Byte := [highByte (encode i), lowByte (encode i)]

/-- The instruction word whose bits, numbered as the opcode table numbers them, are the low `nbits` of `w`; bits above are 0. -/
def tableWord (nbits w : Nat) : Word := BitVec.ofNat 16 (w % 2 ^ nbits)

/-- What the decoder reads from an instruction word given as the opcode table's number, laid out as the hardware stores it. -/
def decodeTableWord (nbits w : Nat) : Option Instr :=
  match decodeBytes [highByte (tableWord nbits w), lowByte (tableWord nbits w)] with
  | .ok (i, _) => some i
  | .error _ => none

end Sys2Proof
end

