-- ==== Sys2Proof/Machine/Flags.lean ====
section
/-! DEFINITION. The values written to `x[15]` as a side effect (R13), each from the operands before any write (R14). -/

namespace Sys2Proof.Machine

/-- A truth value as the byte 1 or 0. -/
def flagOf (p : Bool) : Byte := if p then 1 else 0

/-- ADD: 1 if the 9-bit sum exceeds 255 (R106). -/
def carryFlag (a b : Byte) : Byte := flagOf (decide (a.toNat + b.toNat > 255))

/-- SUB and SUBN: 1 if there is no borrow in `a - b`, equality included (R107, R108). -/
def noBorrowFlag (a b : Byte) : Byte := flagOf (decide (a.toNat ≥ b.toNat))

/-- SHR: the bit shifted out, bit 0 (R109). -/
def lowBitFlag (v : Byte) : Byte := v &&& 1

/-- SHL: the bit shifted out, bit 7 (R110). -/
def highBitFlag (v : Byte) : Byte := v >>> (7 : Nat)

/-- DRW: 1 if a pixel that was on is toggled (R130). -/
def collides (row mask : BitVec 64) : Bool := row &&& mask != 0

end Sys2Proof.Machine
end

