-- ==== Sys2Proof/Config.lean ====
section
/-! DEFINITION. What an instance of the hardware fixes: the generator's two constants, which the spec gives (R5), and the
three parameters it leaves without a value (R6, R7, U8). A parameter is a constant without a body, so that no proof can see its
value and every claim holds for each value R6 allows (notes/assumptions/1.md). -/

namespace Sys2Proof.Config

/-- `RNG_MUL` (R5, R122). -/
abbrev rngMul : BitVec 32 := 1103515245

/-- `RNG_INC` (R5, R122). -/
abbrev rngInc : BitVec 32 := 12345

/-- `FONT_BASE`, an address from 0 to 0x1B0 (R6, D15). OPEN in the spec; DESIGN CHOICE: left free, safe. -/
opaque fontBase : Fin 0x1B1

/-- `FONT`, the 80 bytes of the font table, row `k` of digit `d` at index `5 * d + k` (R6, R46, D16). OPEN in the spec;
DESIGN CHOICE: left free, safe. -/
opaque font : Vector Byte 80

/-- `PRNG_SEED`, 32 bits (R6, R26, D17). OPEN in the spec; DESIGN CHOICE: left free, safe. -/
opaque prngSeed : BitVec 32

end Sys2Proof.Config
end

