-- ==== Sys2Proof/Machine/ResetValues.lean ====
section
/-! DEFINITION. The reset contents that depend on the parameters of the configuration: memory's bytes and the generator's seed
(R31, R200). -/

namespace Sys2Proof.Machine

/-- The byte at address `a` after RESET: `FONT[a - FONT_BASE]` inside the font table, 0 elsewhere (R31, R200). The table lies
below 0x200, since `FONT_BASE` is at most 0x1B0 (R6); asking for that first lets a read from 0x200 on be evaluated although the
parameters have no value. -/
def resetByte (a : Nat) : Byte :=
  if a < 0x200 then
    if h : Config.fontBase.val ≤ a ∧ a < Config.fontBase.val + 80 then Config.font[a - Config.fontBase.val] else 0
  else 0

/-- The generator's state after RESET: `PRNG_SEED` (R26, R31, D14). -/
def resetRng : BitVec 32 := Config.prngSeed

end Sys2Proof.Machine
end

