-- ==== Sys2Proof/Machine/Memory.lean ====
section
/-! DEFINITION. `MEM`, the flat array of 4096 bytes (R28, R40), as a list of (address, byte) pairs in one canonical form:
addresses strictly rising, every address below 4096, and no entry equal to what an unlisted address reads as. -/

namespace Sys2Proof.Machine

/-- The bytes that differ from their reset content, by rising address. -/
abbrev Memory := List Host.Cell

/-- The byte at an address. An unlisted address reads as RESET left it (R31, R47; notes/assumptions/3.md). -/
def Memory.read : Memory → Nat → Byte
  | [], a => resetByte a
  | (k, v) :: m, a => if k = a then v else Memory.read m a

/-- Lists a byte at its place. -/
def Memory.insert : Memory → Nat → Byte → Memory
  | [], a, v => [(a, v)]
  | (k, w) :: m, a, v =>
    if a < k then (a, v) :: (k, w) :: m
    else if a = k then (a, v) :: m
    else (k, w) :: Memory.insert m a v

/-- Unlists an address. -/
def Memory.erase (m : Memory) (a : Nat) : Memory := m.filter fun c => c.1 != a

/-- `MEM[a] <- v` (R8). Writing what an unlisted address reads as removes the entry, so that equal memories are equal lists. -/
def Memory.write (m : Memory) (a : Nat) (v : Byte) : Memory :=
  if v = resetByte a then m.erase a else m.insert a v

/-- The canonical form. -/
abbrev Memory.wf (m : Memory) : Prop :=
  m.Pairwise (fun c d => c.1 < d.1) ∧ ∀ c ∈ m, c.1 < 4096 ∧ c.2 ≠ resetByte c.1

/-- Writes bytes at rising addresses from `a` on (R201). -/
def Memory.writeList : Memory → Nat → List Byte → Memory
  | m, _, [] => m
  | m, a, b :: bs => Memory.writeList (m.write a b) (a + 1) bs

end Sys2Proof.Machine
end

