-- ==== Sys2Proof/Machine/State.lean ====
section
/-! DEFINITION. The complete state of the machine: the thirteen elements of R10 "and nothing else", under the spec's names, the
two errors a STEP can end in (R180), and the state after RESET (R31, R200). The elements are disjoint (R29). -/

namespace Sys2Proof.Machine

/-- The thirteen elements of R10. -/
structure State where
  /-- `x[0..15]`, the general registers; `x[15]` is also the flag (R11, R13). -/
  x     : Vector Byte 16
  /-- `I`, the index register (R15). -/
  I     : Word
  /-- `PC`, the address of the next instruction to fetch (R16, R18). -/
  PC    : Word
  /-- `SP`, the index of the next free stack slot (R19). -/
  SP    : Nibble
  /-- `STACK[0..15]`, the return addresses (R19). -/
  STACK : Vector Word 16
  /-- `DT`, the delay timer (R20). -/
  DT    : Byte
  /-- `ST`, the sound timer (R21). -/
  ST    : Byte
  /-- `KEY[0..15]`, true while the key is pressed (R22). -/
  KEY   : Vector Bool 16
  /-- `FB[0..31]`, the framebuffer, row 0 at the top (R23, R24). -/
  FB    : Vector Scanline 32
  /-- `DIRTY`, set by DRW, cleared by the host (R25). -/
  DIRTY : Bool
  /-- `RNG`, the generator's state (R26). -/
  RNG   : BitVec 32
  /-- `IR`, the word of the most recent successful fetch (R27). -/
  IR    : Word
  /-- `MEM[0..4095]` (R28). -/
  MEM   : Memory
  deriving DecidableEq, Repr

/-- The error results of a STEP (R180), each with the values it records and the state it leaves. The step of the model stops
with the fault (U4, U9, U12: `fault`); the host operation STEP goes on from `left` (R185, notes/assumptions/2.md). -/
inductive Fault where
  /-- `UnsupportedOpcode(w, A)`: raised by SYS and by nothing else (R82, R181). `left` has `IR = w`, `PC = A + 2` and nothing
  else changed (R184). Safe: the model stops where the hardware's next STEP would go on. -/
  | unsupportedOpcode (word address : Word) (left : State)
  /-- `AddressOutOfBounds(value)`: raised by the fetch with `PC > 4094`, `left` being the state before the STEP (R182 case 1,
  R183), and by LD B, Vx with `I > 4093`, `left` having only `IR` and `PC` of the fetch changed (R182 case 2, R184). Safe: the
  model stops where the hardware's next STEP would go on. -/
  | addressOutOfBounds (value : Word) (left : State)
  deriving DecidableEq, Repr

/-- Why an instruction has no meaning in the model. -/
inductive Refusal where
  /-- Raised by an arm of `exec` whose instruction has no meaning yet; no arm does. Safe. -/
  | notModelled (mnemonic : String)
  deriving DecidableEq, Repr

/-- What executing an instruction answers. -/
abbrev Result := Host.Outcome State Fault Refusal

/-- The state after RESET (R31, R200): everything zero, `PC` at 0x200, the generator at its seed, the font table in memory. It
depends on nothing but the configuration. -/
def State.reset : State where
  x     := Vector.replicate 16 0
  I     := 0
  PC    := 0x200
  SP    := 0
  STACK := Vector.replicate 16 0
  DT    := 0
  ST    := 0
  KEY   := Vector.replicate 16 false
  FB    := Vector.replicate 32 0
  DIRTY := false
  RNG   := resetRng
  IR    := 0
  MEM   := []

end Sys2Proof.Machine
end

