-- ==== Sys2Proof/Machine/Operands.lean ====
section
/-! DEFINITION. How operands are formed (R62) and how state elements are read. Every literal is zero-extended; nothing is
sign-extended, scaled or shifted. -/

namespace Sys2Proof.Machine

/-- `x[r]` (R8, R11). No register is hard-wired (R12). -/
def State.reg (s : State) (r : Nibble) : Byte := s.x[r.toNat]'r.isLt

/-- The register number of the flag (R13). -/
abbrev flagReg : Nibble := 15#4

/-- `x[15]`, the flag register (R13). -/
abbrev State.flag (s : State) : Byte := s.reg flagReg

/-- `STACK[k]` (R19). -/
def State.slot (s : State) (k : Nibble) : Word := s.STACK[k.toNat]'k.isLt

/-- The key a register value selects: "only the low 4 bits" (R140). -/
def keyIndex (v : Byte) : Nibble := v.extractLsb' 0 4

/-- `KEY[k]` (R22). -/
def State.key (s : State) (k : Nibble) : Bool := s.KEY[k.toNat]'k.isLt

/-- `MEM[a]` (R8, R47): a read has no side effect. -/
def State.readByte (s : State) (a : Nat) : Byte := s.MEM.read a

/-- `zext_16` of an address literal (R62). -/
def zextAddr (nnn : Addr12) : Word := nnn.setWidth 16

/-- `zext_16` of a byte (R62). -/
def zextByte (v : Byte) : Word := v.setWidth 16

/-- The target of JP V0: `NNN + x[0]`, not reduced to 12 bits (R84). -/
def offsetTarget (nnn : Addr12) (v0 : Byte) : Word := zextAddr nnn + zextByte v0

/-- The address `I + k` of the accesses that are clipped or checked, not wrapped (R62, R48). -/
def indexedAddr (i0 : Word) (k : Nat) : Nat := i0.toNat + k

/-- The address `(I + k) mod 4096` of the register dump and load (R62, R157, R158). -/
def wrappedAddr (i0 : Word) (k : Nat) : Nat := (i0.toNat + k) % 4096

/-- `FONT_BASE + 5 * digit`, with the whole register as the digit (R155, D29). -/
def glyphAddr (digit : Byte) : Word := BitVec.ofNat 16 (Config.fontBase.val + 5 * digit.toNat)

/-- The digits LD B stores, by their offset from `I`: hundreds, tens, ones (R156, R43). -/
def hundredsDigit (v : Byte) : Byte := BitVec.ofNat 8 (v.toNat / 100)
/-- The tens digit (R156). -/
def tensDigit (v : Byte) : Byte := BitVec.ofNat 8 (v.toNat / 10 % 10)
/-- The ones digit (R156). -/
def onesDigit (v : Byte) : Byte := BitVec.ofNat 8 (v.toNat % 10)

/-- `row_mask(b, vx)`: the sprite byte's bit 7 on column `vx`, bits beyond column 63 shifted out, no reduction of the count
(R131, D18). -/
def rowMask (b : Byte) (vx : Byte) : Scanline := ((b.setWidth 64 : Scanline) <<< 56) >>> vx.toNat

/-- The generator step: "`state * 1103515245 + 12345` (32-bit truncating arithmetic)" (R122). The constants stand first: a sum or
product that ends in a large literal makes the kernel count it down when it compares two states. -/
def rngNext (r : BitVec 32) : BitVec 32 := Config.rngInc + Config.rngMul * r

/-- The byte a generator state delivers: bits 24 to 31 (R122). -/
def rngByte (r : BitVec 32) : Byte := r.extractLsb' 24 8

end Sys2Proof.Machine
end

