-- ==== Sys2Proof/Machine/Ops.lean ====
section
/-! DEFINITION. The shared operations: one update per element of the state, memory access, the fetch, the stack, skips, the
drawing loop, the register dump and load, and the raising of an error. -/

namespace Sys2Proof.Machine

/-! ### One update per element -/

/-- `x[r] <- v` (R8). -/
def State.setReg (s : State) (r : Nibble) (v : Byte) : State := { s with x := s.x.set r.toNat v r.isLt }
/-- `x[15] <- v`, a flag output (R13). -/
abbrev State.setFlag (s : State) (v : Byte) : State := s.setReg flagReg v
/-- Replaces the register file. -/
def State.setX (s : State) (x : Vector Byte 16) : State := { s with x := x }
/-- `I <- v` (R15). -/
def State.setI (s : State) (v : Word) : State := { s with I := v }
/-- `PC <- v` (R16). -/
def State.setPC (s : State) (v : Word) : State := { s with PC := v }
/-- `SP <- v` (R19). -/
def State.setSP (s : State) (v : Nibble) : State := { s with SP := v }
/-- `STACK[k] <- v` (R19). -/
def State.setSlot (s : State) (k : Nibble) (v : Word) : State := { s with STACK := s.STACK.set k.toNat v k.isLt }
/-- `DT <- v` (R20). -/
def State.setDT (s : State) (v : Byte) : State := { s with DT := v }
/-- `ST <- v` (R21). -/
def State.setST (s : State) (v : Byte) : State := { s with ST := v }
/-- `KEY[k] <- p` (R22). -/
def State.setKey (s : State) (k : Nibble) (p : Bool) : State := { s with KEY := s.KEY.set k.toNat p k.isLt }
/-- Replaces the framebuffer (R23). -/
def State.setFB (s : State) (fb : Vector Scanline 32) : State := { s with FB := fb }
/-- `DIRTY <- p` (R25). -/
def State.setDirty (s : State) (p : Bool) : State := { s with DIRTY := p }
/-- `RNG <- r` (R26). -/
def State.setRNG (s : State) (r : BitVec 32) : State := { s with RNG := r }
/-- `IR <- w` (R27). -/
def State.setIR (s : State) (w : Word) : State := { s with IR := w }
/-- Replaces memory (R28). -/
def State.setMEM (s : State) (m : Memory) : State := { s with MEM := m }

/-! ### Memory -/

/-- `MemWrite(a, 1, v)` (R8). Callers guarantee `a < 4096` (R48). -/
def State.writeByte (s : State) (a : Nat) (v : Byte) : State := s.setMEM (s.MEM.write a v)

/-- `MemRead(a, 2)`: the big-endian word at `a` and `a + 1` (R8, R42). -/
def State.readWord (s : State) (a : Nat) : Word := wordOfBytes (s.readByte a) (s.readByte (a + 1))

/-- Stores a word as memory holds an instruction, the high byte at the lower address (R42). -/
def State.writeWord (s : State) (a : Nat) (w : Word) : State :=
  (s.writeByte a (highByte w)).writeByte (a + 1) (lowByte w)

/-- Stores the three decimal digits of `v` at `i0`, `i0 + 1`, `i0 + 2`, hundreds first (R156, R43). -/
def State.storeDigits (s : State) (i0 : Word) (v : Byte) : State :=
  ((s.writeByte (indexedAddr i0 0) (hundredsDigit v)).writeByte (indexedAddr i0 1) (tensDigit v)).writeByte
    (indexedAddr i0 2) (onesDigit v)

/-! ### The fetch phase (R172) -/

/-- A fetch at `PC` reads inside memory (R18, R182 case 1, D8). -/
abbrev State.canFetch (s : State) : Prop := s.PC.toNat ≤ 4094

/-- The instruction word at `PC` (R42). -/
def State.fetchWord (s : State) : Word := s.readWord s.PC.toNat

/-- The state after a successful fetch phase: `IR <- w`, `PC <- A + 2` (R16, R172). -/
def State.fetched (s : State) : State := (s.setIR s.fetchWord).setPC (s.PC + 2)

/-! ### Control flow -/

/-- Pushes a return address: `STACK[SP] <- v; SP <- (SP + 1) mod 16` (R85). -/
def State.push (s : State) (v : Word) : State := (s.setSlot s.SP v).setSP (s.SP + 1)

/-- Skips the next instruction if `c` holds: `PC <- PC + 2` (R90 to R94). -/
def State.skipIf (s : State) (c : Bool) : State := s.setPC (if c then s.PC + 2 else s.PC)

/-! ### Errors (R180 to R184)

There is no trap entry: an error is the answer of the operation, with the state it leaves (R189). -/

/-- Raises `UnsupportedOpcode(w, A)` in the execute phase: `w` is `IR` and `A` is `PC - 2` (R82, R181, D12). The fetch's effects
stay and nothing else has been written (R184, D11). -/
def raiseUnsupportedOpcode (s : State) : Result := .fault (.unsupportedOpcode s.IR (s.PC - 2) s)

/-- Raises `AddressOutOfBounds(value)` and leaves the state as it is (R182, R183, R184, D11). -/
def raiseAddressOutOfBounds (value : Word) (s : State) : Result := .fault (.addressOutOfBounds value s)

/-! ### Drawing (R130) -/

/-- The drawing loop from sprite row `r` on, with `n` rows to go: a row whose byte would lie outside memory, or whose target is
below row 31, ends the loop; a drawn row is toggled, and `hit` records a collision seen before the toggling. -/
def drawRows (mem : Memory) (i0 : Word) (vx vy : Byte) :
    (n r : Nat) → (fb : Vector Scanline 32) → (hit : Bool) → Vector Scanline 32 × Bool
  | 0, _, fb, hit => (fb, hit)
  | n + 1, r, fb, hit =>
    if indexedAddr i0 r > 4095 then (fb, hit)
    else
      let mask := rowMask (mem.read (indexedAddr i0 r)) vx
      if h : vy.toNat + r ≤ 31 then
        drawRows mem i0 vx vy n (r + 1) (fb.set (vy.toNat + r) (fb[vy.toNat + r] ^^^ mask))
          (hit || collides fb[vy.toNat + r] mask)
      else (fb, hit)

/-! ### Register dump and load (R157, R158) -/

/-- Stores `x[0]` to `x[k-1]` at `(i0 + i) mod 4096`, in rising order (R157). -/
def dumpRegs (x : Vector Byte 16) (i0 : Word) : (k : Nat) → Memory → Memory
  | 0, m => m
  | k + 1, m => (dumpRegs x i0 k m).write (wrappedAddr i0 k) (x.getD k 0)

/-- Loads `x[0]` to `x[k-1]` from `(i0 + i) mod 4096`, in rising order (R158). -/
def loadRegs (m : Memory) (i0 : Word) : (k : Nat) → Vector Byte 16 → Vector Byte 16
  | 0, x => x
  | k + 1, x => (loadRegs m i0 k x).setIfInBounds k (m.read (wrappedAddr i0 k))

end Sys2Proof.Machine
end

