-- ==== Sys2Proof/Machine/Alu.lean ====
section
/-! DEFINITION. Register loads and the ALU (42_alu.md). Operands are sampled first; the writes follow in the rule's order, so that
of two writes to one register the later stays (R14, D7). -/

namespace Sys2Proof.Machine

/-- LD Vx, NN (R100). -/
def execLdVxNN (x : Nibble) (nn : Byte) (s : State) : Result := .next (s.setReg x nn)

/-- ADD Vx, NN: wraps, touches no flag (R101). -/
def execAddVxNN (x : Nibble) (nn : Byte) (s : State) : Result := .next (s.setReg x (s.reg x + nn))

/-- LD Vx, Vy (R102). -/
def execLdVxVy (x y : Nibble) (s : State) : Result := .next (s.setReg x (s.reg y))

/-- OR Vx, Vy: touches no flag (R103, D28). -/
def execOrVxVy (x y : Nibble) (s : State) : Result := .next (s.setReg x (s.reg x ||| s.reg y))

/-- AND Vx, Vy: touches no flag (R104, D28). -/
def execAndVxVy (x y : Nibble) (s : State) : Result := .next (s.setReg x (s.reg x &&& s.reg y))

/-- XOR Vx, Vy: touches no flag (R105, D28). -/
def execXorVxVy (x y : Nibble) (s : State) : Result := .next (s.setReg x (s.reg x ^^^ s.reg y))

/-- ADD Vx, Vy: the sum, then the carry (R106). -/
def execAddVxVy (x y : Nibble) (s : State) : Result :=
  .next ((s.setReg x (s.reg x + s.reg y)).setFlag (carryFlag (s.reg x) (s.reg y)))

/-- SUB Vx, Vy: `x[X] - x[Y]`, then the no-borrow flag (R107). -/
def execSubVxVy (x y : Nibble) (s : State) : Result :=
  .next ((s.setReg x (s.reg x - s.reg y)).setFlag (noBorrowFlag (s.reg x) (s.reg y)))

/-- SUBN Vx, Vy: `x[Y] - x[X]`, then the no-borrow flag (R108). -/
def execSubnVxVy (x y : Nibble) (s : State) : Result :=
  .next ((s.setReg x (s.reg y - s.reg x)).setFlag (noBorrowFlag (s.reg y) (s.reg x)))

/-- SHR Vx, Vy: the bit shifted out of `x[Y]`, then `x[Y] >> 1` (R109). -/
def execShrVxVy (x y : Nibble) (s : State) : Result :=
  .next ((s.setFlag (lowBitFlag (s.reg y))).setReg x (s.reg y >>> (1 : Nat)))

/-- SHL Vx, Vy: the bit shifted out of `x[Y]`, then `x[Y] << 1` (R110). -/
def execShlVxVy (x y : Nibble) (s : State) : Result :=
  .next ((s.setFlag (highBitFlag (s.reg y))).setReg x (s.reg y <<< (1 : Nat)))

end Sys2Proof.Machine
end

