-- ==== Sys2Proof/Machine/ClassF.lean ====
section
/-! DEFINITION. Class F: timers, key wait, index arithmetic, memory transfers (46_timer_index_memory.md). -/

namespace Sys2Proof.Machine

/-- LD Vx, DT (R150). -/
def execLdVxDT (x : Nibble) (s : State) : Result := .next (s.setReg x s.DT)

/-- LD Vx, K: a no-operation; it neither waits nor reads a key (R151, D4). -/
def execLdVxK (s : State) : Result := .next s

/-- LD DT, Vx (R152). -/
def execLdDTVx (x : Nibble) (s : State) : Result := .next (s.setDT (s.reg x))

/-- LD ST, Vx: emits no event (R153). -/
def execLdSTVx (x : Nibble) (s : State) : Result := .next (s.setST (s.reg x))

/-- ADD I, Vx: 16 bits, no flag (R154, D19). -/
def execAddIVx (x : Nibble) (s : State) : Result := .next (s.setI (s.I + zextByte (s.reg x)))

/-- LD F, Vx: the address of a glyph; no memory is accessed (R155, D29). -/
def execLdFVx (x : Nibble) (s : State) : Result := .next (s.setI (glyphAddr (s.reg x)))

/-- LD B, Vx: three decimal digits at `I`, `I + 1`, `I + 2`; all three addresses are checked before any write (R156, D10). -/
def execLdBVx (x : Nibble) (s : State) : Result :=
  if s.I.toNat > 4093 then raiseAddressOutOfBounds s.I s
  else .next (s.storeDigits s.I (s.reg x))

/-- LD [I], Vx: stores `x[0]` to `x[X]`; `I` is unchanged (R157). -/
def execLdMemVx (x : Nibble) (s : State) : Result := .next (s.setMEM (dumpRegs s.x s.I (x.toNat + 1) s.MEM))

/-- LD Vx, [I]: loads `x[0]` to `x[X]`; `I` is unchanged (R158). -/
def execLdVxMem (x : Nibble) (s : State) : Result := .next (s.setX (loadRegs s.MEM s.I (x.toNat + 1) s.x))

end Sys2Proof.Machine
end

