-- ==== Sys2Proof/Machine/Draw.lean ====
section
/-! DEFINITION. The draw instruction, the only writer of the framebuffer and the dirty flag (44_draw.md). -/

namespace Sys2Proof.Machine

/-- DRW Vx, Vy, N: coordinates and `I` are sampled before the flag is cleared (R14); the rows are drawn until one clips; the flag
tells whether a pixel that was on was toggled; the dirty flag is always set (R130). -/
def execDrw (x y n : Nibble) (s : State) : Result :=
  let drawn := drawRows s.MEM s.I (s.reg x) (s.reg y) n.toNat 0 s.FB false
  .next (((s.setFlag (flagOf drawn.2)).setFB drawn.1).setDirty true)

end Sys2Proof.Machine
end

