-- ==== Sys2Proof/Machine/Flow.lean ====
section
/-! DEFINITION. Class 0, jumps, call and return (40_flow.md). Every meaning of the model is the execute phase: `IR` and `PC` are
as the fetch left them, `PC` two past the instruction (R16, R172). -/

namespace Sys2Proof.Machine

/-- CLS: a no-operation; it clears nothing (R80, D3). -/
def execCls (s : State) : Result := .next s

/-- RET: `sp' = (SP - 1) mod 16; PC <- STACK[sp']; SP <- sp'`. The slot keeps its content (R81). -/
def execRet (s : State) : Result := .next ((s.setPC (s.slot (s.SP - 1))).setSP (s.SP - 1))

/-- SYS NNN: always `UnsupportedOpcode` (R82). -/
def execSys (s : State) : Result := raiseUnsupportedOpcode s

/-- JP NNN: `PC <- zext_16(NNN)` (R83). -/
def execJp (nnn : Addr12) (s : State) : Result := .next (s.setPC (zextAddr nnn))

/-- JP V0, NNN: `PC <- NNN + x[0]` (R84). -/
def execJpV0 (nnn : Addr12) (s : State) : Result := .next (s.setPC (offsetTarget nnn (s.reg 0)))

/-- CALL NNN: pushes `PC`, the address after the CALL, and jumps (R85). -/
def execCall (nnn : Addr12) (s : State) : Result := .next ((s.push s.PC).setPC (zextAddr nnn))

end Sys2Proof.Machine
end

