-- ==== Sys2Proof/Machine/IndexRandom.lean ====
section
/-! DEFINITION. Index load and the pseudo-random generator (43_index_random.md). -/

namespace Sys2Proof.Machine

/-- LD I, NNN: `I <- zext_16(NNN)` (R120). -/
def execLdINNN (nnn : Addr12) (s : State) : Result := .next (s.setI (zextAddr nnn))

/-- RND Vx, NN: advances the generator once and masks the byte of its new state (R121, R122). -/
def execRndVxNN (x : Nibble) (nn : Byte) (s : State) : Result :=
  .next ((s.setRNG (rngNext s.RNG)).setReg x (rngByte (rngNext s.RNG) &&& nn))

end Sys2Proof.Machine
end

