-- ==== Sys2Proof/Machine/Reserved.lean ====
section
/-! DEFINITION. The reserved sub-codes of classes 8, E and F: no-operations (R66, D5). -/

namespace Sys2Proof.Machine

/-- RSV8 (R66). -/
def execRsv8 (s : State) : Result := .next s

/-- RSVE (R66). -/
def execRsvE (s : State) : Result := .next s

/-- RSVF (R66). -/
def execRsvF (s : State) : Result := .next s

end Sys2Proof.Machine
end

