-- ==== Sys2Proof/Machine/Skips.lean ====
section
/-! DEFINITION. Conditional skips on registers (41_skips.md) and on the key flags (45_keypad.md). -/

namespace Sys2Proof.Machine

/-- SE Vx, NN: skips if `x[X] = NN` (R90). -/
def execSeVxNN (x : Nibble) (nn : Byte) (s : State) : Result := .next (s.skipIf (s.reg x == nn))

/-- SNE Vx, NN: skips if `x[X]` differs from `NN` (R91). -/
def execSneVxNN (x : Nibble) (nn : Byte) (s : State) : Result := .next (s.skipIf (s.reg x != nn))

/-- SE Vx, Vy: skips if `x[X] = x[Y]` (R92). -/
def execSeVxVy (x y : Nibble) (s : State) : Result := .next (s.skipIf (s.reg x == s.reg y))

/-- SNE Vx, Vy: skips if `x[X]` differs from `x[Y]` (R93). -/
def execSneVxVy (x y : Nibble) (s : State) : Result := .next (s.skipIf (s.reg x != s.reg y))

/-- SKP Vx: skips if the key selected by the low four bits of `x[X]` is pressed (R140). -/
def execSkp (x : Nibble) (s : State) : Result := .next (s.skipIf (s.key (keyIndex (s.reg x))))

/-- SKNP Vx: skips if that key is not pressed (R141). -/
def execSknp (x : Nibble) (s : State) : Result := .next (s.skipIf (!s.key (keyIndex (s.reg x))))

end Sys2Proof.Machine
end

