-- ==== Sys2Proof/Machine/Step.lean ====
section
/-! DEFINITION. The operation STEP (R172): fetch, decode, execute, as one indivisible step. -/

namespace Sys2Proof.Machine

/-- One fetch-decode-execute cycle. A fetch outside memory raises `AddressOutOfBounds(PC)` and writes nothing (R182 case 1,
R183); otherwise the decoded instruction executes on the state the fetch phase left (R172). -/
def step (s : State) : Host.Outcome State Fault Refusal :=
  if s.PC.toNat > 4094 then raiseAddressOutOfBounds s.PC s
  else exec (decode s.fetchWord) s.fetched

/-- `s` with an instruction word stored where the next STEP fetches, `w` and `nbits` as the opcode table numbers bits. Where `PC`
holds no address a fetch can use, `PC` is put at the entry point 0x200 (R204), so that the next STEP runs the instruction. It
stands for the part of LOAD that places a program (R201, notes/assumptions/5.md). -/
def State.withFetchWord (s : State) (nbits w : Nat) : State :=
  if s.PC.toNat > 4094 then (s.setPC 0x200).writeWord 0x200 (tableWord nbits w)
  else s.writeWord s.PC.toNat (tableWord nbits w)

end Sys2Proof.Machine
end

