-- ==== Sys2Proof/Machine/HostOps.lean ====
section
/-! DEFINITION. The operations by which the host drives the block (R170 to R177), RESET and LOAD (R200 to R202), their results
(R180), and the run of a schedule (R171). STEP is `step`, with the state an error leaves taken from the fault (R184, R185). -/

namespace Sys2Proof.Machine

/-- The host operations "and no others" (R170). -/
inductive HostOp where
  /-- `reset()` (R200). -/
  | reset
  /-- `load(bytes)` (R201). -/
  | load (bytes : List Byte)
  /-- `execute_one()` (R172). -/
  | step
  /-- `tick()` (R173). -/
  | tick
  /-- `set_key(index, pressed)`; the index has four bits (R174, D25). -/
  | setKey (k : Nibble) (p : Bool)
  /-- `clear_dirty()` (R175). -/
  | clearDirty
  /-- `framebuffer()` (R176). -/
  | framebuffer
  /-- `is_dirty()` (R176). -/
  | isDirty
  /-- The program counter accessor (R176). -/
  | getPC
  /-- The index register accessor (R176). -/
  | getI
  /-- The stack pointer accessor (R176). -/
  | getSP
  /-- The delay timer accessor (R176). -/
  | getDT
  deriving DecidableEq, Repr

/-- What an operation answers (R170, R180, R177). -/
inductive OpResult where
  /-- No result: RESET, SET_KEY, CLEAR_DIRTY, and a TICK without event. -/
  | none
  /-- `OK`, of STEP and LOAD. -/
  | ok
  /-- `UnsupportedOpcode(w, A)`, of STEP (R181). -/
  | unsupportedOpcode (word address : Word)
  /-- `AddressOutOfBounds(value)`, of STEP (R182). -/
  | addressOutOfBounds (value : Word)
  /-- `ProgramTooLarge(L)`, of LOAD (R202). -/
  | programTooLarge (length : Nat)
  /-- A STEP whose instruction the model refuses; no instruction does. -/
  | notExecuted
  /-- The event `SOUND_ELAPSED`, of TICK (R177). -/
  | soundElapsed
  /-- The 32 rows, of FRAMEBUFFER (R176). -/
  | rows (fb : Vector Scanline 32)
  /-- The value of IS_DIRTY (R176). -/
  | dirty (p : Bool)
  /-- The value of GET_PC or GET_I (R176). -/
  | word (v : Word)
  /-- The value of GET_SP (R176). -/
  | nibble (v : Nibble)
  /-- The value of GET_DT (R176). -/
  | byte (v : Byte)
  deriving DecidableEq, Repr

/-- The result code of an operation that has one (R180, D12). -/
def OpResult.code : OpResult → Option Nat
  | .ok => some 0
  | .unsupportedOpcode _ _ => some 1
  | .addressOutOfBounds _ => some 2
  | .programTooLarge _ => some 3
  | .none | .notExecuted | .soundElapsed | .rows _ | .dirty _ | .word _ | .nibble _ | .byte _ => Option.none

/-- The state an error leaves (R183, R184). -/
def Fault.left : Fault → State
  | .unsupportedOpcode _ _ t => t
  | .addressOutOfBounds _ t => t

/-- The error result without the state (R180). -/
def Fault.result : Fault → OpResult
  | .unsupportedOpcode w a _ => .unsupportedOpcode w a
  | .addressOutOfBounds v _ => .addressOutOfBounds v

/-- STEP as the host sees it: the state left and the result (R172, R184, R185). -/
def stepOp (s : State) : State × OpResult :=
  match step s with
  | .next t => (t, .ok)
  | .fault f => (f.left, f.result)
  | .refused _ => (s, .notExecuted)

/-- A timer's decrement: by exactly 1, floored at 0 (R20, R173). -/
def countDown (v : Byte) : Byte := if v = 0 then 0 else v - 1

/-- TICK: both timers count down; the event comes exactly when this TICK takes `ST` from 1 to 0 (R173, R177). -/
def tickOp (s : State) : State × OpResult :=
  ((s.setDT (countDown s.DT)).setST (countDown s.ST), if s.ST = 1 then .soundElapsed else .none)

/-- LOAD: RESET, then the whole length is checked, then the bytes are written from 0x200 on (R201, R202, D9). -/
def loadOp (bytes : List Byte) : State × OpResult :=
  if 0x200 + bytes.length > 4096 then (State.reset, .programTooLarge bytes.length)
  else (State.reset.setMEM (State.reset.MEM.writeList 0x200 bytes), .ok)

/-- One host operation, indivisible (R171). The accessors change nothing (R176). -/
def perform (o : HostOp) (s : State) : State × OpResult :=
  match o with
  | .reset => (State.reset, .none)
  | .load bytes => loadOp bytes
  | .step => stepOp s
  | .tick => tickOp s
  | .setKey k p => (s.setKey k p, .none)
  | .clearDirty => (s.setDirty false, .none)
  | .framebuffer => (s, .rows s.FB)
  | .isDirty => (s, .dirty s.DIRTY)
  | .getPC => (s, .word s.PC)
  | .getI => (s, .word s.I)
  | .getSP => (s, .nibble s.SP)
  | .getDT => (s, .byte s.DT)

/-- A run: the operations of a schedule in order, from the state given, with their results (R171). -/
def runSchedule : List HostOp → State → State × List OpResult
  | [], s => (s, [])
  | o :: os, s =>
    ((runSchedule os (perform o s).1).1, (perform o s).2 :: (runSchedule os (perform o s).1).2)

end Sys2Proof.Machine
end

