-- ==== Sys2Proof/Safety.lean ====
section
/-! DEFINITION. The terms in which claims are made: which elements a state transition may change, the invariant of R30, what a
skip decides, which register an instruction names as destination, and runs of calls, returns and generator steps. -/

namespace Sys2Proof.Machine

/-! ### Frames -/

/-- The thirteen elements of R10, by name. -/
inductive Element where
  | x | I | PC | SP | STACK | DT | ST | KEY | FB | DIRTY | RNG | IR | MEM
  deriving DecidableEq, Repr

/-- An element is the same in two states. Memory is compared by the read of one byte, at every address. -/
def Element.Same : Element → State → State → Prop
  | .x, s, t => ∀ r, t.reg r = s.reg r
  | .I, s, t => t.I = s.I
  | .PC, s, t => t.PC = s.PC
  | .SP, s, t => t.SP = s.SP
  | .STACK, s, t => ∀ k, t.slot k = s.slot k
  | .DT, s, t => t.DT = s.DT
  | .ST, s, t => t.ST = s.ST
  | .KEY, s, t => ∀ k, t.key k = s.key k
  | .FB, s, t => ∀ (q : Nat) (h : q < 32), t.FB[q] = s.FB[q]
  | .DIRTY, s, t => t.DIRTY = s.DIRTY
  | .RNG, s, t => t.RNG = s.RNG
  | .IR, s, t => t.IR = s.IR
  | .MEM, s, t => ∀ a, t.readByte a = s.readByte a

/-- From `s` to `t` no element changes but those listed. -/
def ChangesOnly (es : List Element) (s t : State) : Prop := ∀ e, e ∉ es → e.Same s t

/-- From `s` to `t` no general register changes but those listed. -/
def RegsChangeOnly (rs : List Nibble) (s t : State) : Prop := ∀ r, r ∉ rs → t.reg r = s.reg r

/-! ### The invariant of R30

The widths of R30's other rows are the types of the elements. -/

/-- What every reachable state satisfies: memory in its canonical form (notes/assumptions/3.md), `PC <= 0x10FE` (R18, R30), and
every stack slot at most 4096 (R30). -/
structure Inv (s : State) : Prop where
  mem   : s.MEM.wf
  pc    : s.PC.toNat ≤ 0x10FE
  stack : ∀ k, (s.slot k).toNat ≤ 4096

/-! ### What instructions decide and name -/

/-- For the six skip instructions, whether the condition holds (R90 to R93, R140, R141); nothing for the others. -/
def skipCondition (i : Instr) (s : State) : Option Bool :=
  match i with
  | .seVxNN x nn => some (decide (s.reg x = nn))
  | .sneVxNN x nn => some (decide (s.reg x ≠ nn))
  | .seVxVy x y _ => some (decide (s.reg x = s.reg y))
  | .sneVxVy x y _ => some (decide (s.reg x ≠ s.reg y))
  | .skp x => some (s.key (BitVec.ofNat 4 ((s.reg x).toNat % 16)))
  | .sknp x => some (!s.key (BitVec.ofNat 4 ((s.reg x).toNat % 16)))
  | _ => none

/-- Whether an instruction names register `r` as a destination: its `X`, or for LD Vx, [I] a register of its range (R13, R62,
R158). -/
def namesAsDestination (i : Instr) (r : Nibble) : Prop :=
  match i with
  | .ldVxNN x _ | .addVxNN x _ | .ldVxVy x _ | .orVxVy x _ | .andVxVy x _ | .xorVxVy x _ | .addVxVy x _ | .subVxVy x _
  | .subnVxVy x _ | .shrVxVy x _ | .shlVxVy x _ | .rndVxNN x _ | .ldVxDT x => r = x
  | .ldVxMem x => r.toNat ≤ x.toNat
  | _ => False

/-- The rows of the opcode map that write `x[15]` as a side effect: 8XY4, 8XY5, 8XY7, 8XY6, 8XYE, DXYN (R13). -/
def flagRows : List Nat := [17, 18, 19, 20, 21, 24]

/-! ### Runs -/

/-- CALLs with no return between them: each executes with `PC` at the given return address (R16, R85). -/
def callsFrom : List (Word × Addr12) → State → Result
  | [], s => .next s
  | (back, nnn) :: cs, s =>
    match exec (.call nnn) (s.setPC back) with
    | .next t => callsFrom cs t
    | .fault f => .fault f
    | .refused r => .refused r

/-- `n` returns, with the addresses they go to in order, and the state after them; nothing if one does not execute. -/
def returnsFrom : Nat → State → Option (List Word × State)
  | 0, s => some ([], s)
  | n + 1, s =>
    match exec (.ret 0) s with
    | .next t => (returnsFrom n t).map fun p => (t.PC :: p.1, p.2)
    | .fault _ | .refused _ => none

/-- How many operations of a schedule execute RND (R121, row 23 of the opcode map). -/
def rndCount : List HostOp → State → Nat
  | [], _ => 0
  | o :: os, s =>
    (if o = .step ∧ s.canFetch ∧ (decode s.fetchWord).rowNumber = 23 then 1 else 0) + rndCount os (perform o s).1

end Sys2Proof.Machine
end

