-- ==== Sys2Proof/Certificates/Slice0/Obligations.lean ====
section
/-! DEFINITION. The statements about the model, from the spec's numbered rules. `exec i s` is the execute phase: in it `s.IR` is the
instruction's word and `s.PC` its address plus 2 (R16, R172). -/

open Sys2Proof Sys2Proof.Machine

/-! ### Encoding -/

/-- Every well-formed instruction is read back from its word, and from its bytes whatever follows them (R60, R64). -/
def Obligations.DecodeOfEncodeIsTheInstruction : Prop :=
  ∀ i : Instr, i.wf = true →
    decode (encode i) = i ∧ ∀ rest, decodeBytes (encodeBytes i ++ rest) = .ok (i, rest)

/-- Every one of the 65,536 words is the encoding of exactly one well-formed instruction, the one the decoder reads (R63, R68). -/
def Obligations.EveryWordEncodesExactlyOneInstruction : Prop :=
  ∀ w : Word, (decode w).wf = true ∧ encode (decode w) = w ∧ ∀ j : Instr, j.wf = true → encode j = w → j = decode w

/-- The decoder, written as the two-level dispatch of R63, reads the first row of the printed opcode map that matches (R64). -/
def Obligations.DecoderTakesFirstMatchingRow : Prop :=
  ∀ w : Word, firstMatchingRow w = some (decode w).rowNumber

/-- The decoding vectors E1 to E10 of 95_test_vectors.md, written out from the encodings of R61 and R64. -/
def Obligations.SampleWordsDecodeAsTheSpecPrints : Prop :=
  decode 0xD12A = .drw 0x1 0x2 0xA ∧ decode 0x8AB4 = .addVxVy 0xA 0xB ∧ decode 0x8AB9 = .rsv8 0xA 0xB 0x9 ∧
  decode 0x0AE0 = .cls 0xA ∧ decode 0x00E1 = .sys 0x0E1 ∧ decode 0xF155 = .ldMemVx 0x1 ∧ decode 0xF156 = .rsvF 0x1 0x56 ∧
  decode 0x5AB1 = .seVxVy 0xA 0xB 0x1 ∧ decode 0xE09F = .rsvE 0x0 0x9F ∧ decode 0xFFFF = .rsvF 0xF 0xFF

/-- Ignored bits do not matter (R65): the low nibble in classes 5 and 9, and `X` in the two listed rows of class 0.
Both follow the spec's decision D6. -/
def Obligations.IgnoredBitsHaveNoEffect : Prop :=
  ∀ (w v : Word) (s : State),
    ((w &&& 0xFFF0 = v &&& 0xFFF0 ∧ (w &&& 0xF000 = 0x5000 ∨ w &&& 0xF000 = 0x9000)) ∨
      (w &&& 0xF0FF = v &&& 0xF0FF ∧ (w &&& 0xF0FF = 0x00E0 ∨ w &&& 0xF0FF = 0x00EE))) →
    exec (decode w) s = exec (decode v) s

/-! ### The step -/

/-- A STEP runs the decoded instruction: when the two bytes at `PC` decode to `i`, `step` is `exec i` on the state whose `IR` is
the word, high byte at the lower address, and whose `PC` is two further (R42, R172; `IR` by the spec's decision
D26). -/
def Obligations.StepRunsTheDecodedInstruction : Prop :=
  ∀ (s : State) (i : Instr), s.PC.toNat ≤ 4094 →
    decodeBytes [s.readByte s.PC.toNat, s.readByte (s.PC.toNat + 1)] = .ok (i, []) →
    (encode i).toNat = (s.readByte s.PC.toNat).toNat * 256 + (s.readByte (s.PC.toNat + 1)).toNat ∧
    (s.PC + 2).toNat = s.PC.toNat + 2 ∧
    step s = exec i { s with IR := encode i, PC := s.PC + 2 }

/-- A fetch with `PC > 4094` ends the STEP with `AddressOutOfBounds(PC)` and changes nothing (R182 case 1, R183; the spec's
decisions D8 and D11). -/
def Obligations.FetchOutsideMemoryChangesNothing : Prop :=
  ∀ s : State, 4094 < s.PC.toNat → step s = .fault (.addressOutOfBounds s.PC s)

/-- A STEP is never refused, and it answers a next state exactly when the fetch lies inside memory and the word is neither a SYS
nor an LD B, Vx with `I > 4093` (R181, R182; decisions D8, D10). -/
def Obligations.StepSucceedsExactlyWithoutError : Prop :=
  ∀ s : State, (∀ r, step s ≠ .refused r) ∧
    ((∃ t, step s = .next t) ↔
      s.PC.toNat ≤ 4094 ∧ (∀ nnn, decode s.fetchWord ≠ .sys nnn) ∧
      ((∃ x, decode s.fetchWord = .ldBVx x) → s.I.toNat ≤ 4093))

/-- Errors are precise: each is one of the two of R180 for STEP, with the values R180 records, and leaves the state of R183 or
R184 (decisions D8, D10, D11, D12). -/
def Obligations.EveryErrorIsPrecise : Prop :=
  ∀ (s : State) (f : Fault), step s = .fault f →
    (4094 < s.PC.toNat ∧ f = .addressOutOfBounds s.PC s) ∨
    (s.PC.toNat ≤ 4094 ∧ ∃ left, left = { s with IR := s.fetchWord, PC := s.PC + 2 } ∧
      ((∃ nnn, decode s.fetchWord = .sys nnn ∧ f = .unsupportedOpcode s.fetchWord s.PC left) ∨
       (∃ x, decode s.fetchWord = .ldBVx x ∧ 4093 < s.I.toNat ∧ f = .addressOutOfBounds s.I left)))

/-! ### Invariants and rules over all instructions -/

/-- The reset state meets the invariant (R30, R31). -/
def Obligations.ResetMeetsTheInvariant : Prop := Inv State.reset

/-- A STEP keeps the invariant, from every state that meets it (R30). -/
def Obligations.StepKeepsTheInvariant : Prop := ∀ s t : State, Inv s → step s = .next t → Inv t

/-- The invariant holds after any sequence of host operations, those that answer an error among them, from any state that meets
it, so in every state reachable from RESET (R30). -/
def Obligations.EveryScheduleKeepsTheInvariant : Prop :=
  ∀ (os : List HostOp) (s : State), Inv s → Inv (runSchedule os s).1

/-- Which instructions may change which element (R32, column "instructions"; R23, R25, R26, R27): the keys and `IR` none, the
framebuffer and the dirty flag only DRW, the generator only RND, the timers, `I`, the stack, memory and `PC` only the listed
rows of the opcode map. -/
def Obligations.ElementsChangeOnlyByTheirInstructions : Prop :=
  ∀ (i : Instr) (s t : State), exec i s = .next t →
    t.KEY = s.KEY ∧ t.IR = s.IR ∧
    (i.rowNumber ≠ 24 → t.FB = s.FB ∧ t.DIRTY = s.DIRTY) ∧
    (i.rowNumber ≠ 23 → t.RNG = s.RNG) ∧
    (i.rowNumber ≠ 29 → t.DT = s.DT) ∧
    (i.rowNumber ≠ 30 → t.ST = s.ST) ∧
    (i.rowNumber ∉ [22, 31, 32] → t.I = s.I) ∧
    (i.rowNumber ≠ 6 → t.STACK = s.STACK) ∧
    (i.rowNumber ∉ [2, 6] → t.SP = s.SP) ∧
    (i.rowNumber ∉ [33, 34] → t.MEM = s.MEM) ∧
    (i.rowNumber ∉ [2, 4, 5, 6, 7, 8, 9, 10, 25, 26] → t.PC = s.PC)

/-- A general register changes only as the destination an instruction names, or, for `x[15]`, as the flag output of one of the
six instructions of R13's table (R12, R13). -/
def Obligations.RegistersChangeOnlyWhereNamed : Prop :=
  ∀ (i : Instr) (s t : State) (r : Nibble), exec i s = .next t → t.reg r ≠ s.reg r →
    namesAsDestination i r ∨ (r = 15 ∧ i.rowNumber ∈ flagRows)

/-- How each instruction leaves `PC` (R17, R94 a): `A` being its own address, NNN, `NNN + x[0]`, the popped slot, `A + 4` or
`A + 2` for a skip, and `A + 2` for every other instruction. -/
def Obligations.ProgramCounterAfterAStep : Prop :=
  ∀ s t : State, step s = .next t →
    (∀ nnn, decode s.fetchWord = .jp nnn ∨ decode s.fetchWord = .call nnn → t.PC.toNat = nnn.toNat) ∧
    (∀ nnn, decode s.fetchWord = .jpV0 nnn → t.PC.toNat = nnn.toNat + (s.reg 0).toNat) ∧
    (∀ k, decode s.fetchWord = .ret k → t.PC = s.slot (s.SP - 1)) ∧
    (∀ c, skipCondition (decode s.fetchWord) s = some c → t.PC.toNat = s.PC.toNat + if c then 4 else 2) ∧
    ((decode s.fetchWord).rowNumber ∉ [2, 4, 5, 6, 7, 8, 9, 10, 25, 26] → t.PC.toNat = s.PC.toNat + 2)

/-! ### No-operations -/

/-- CLS, LD Vx, K and the reserved sub-codes change nothing in the execute phase (R80, R151, R66; the spec's decisions D3, D4 and
D5), as constructors and as the words the rules list. -/
def Obligations.NoOperationsChangeNothing : Prop :=
  (∀ (x y n : Nibble) (nn : Byte) (s : State),
    exec (.cls x) s = .next s ∧ exec (.ldVxK x) s = .next s ∧ exec (.rsv8 x y n) s = .next s ∧
    exec (.rsvE x nn) s = .next s ∧ exec (.rsvF x nn) s = .next s) ∧
  ∀ (w : Word) (s : State),
    (w &&& 0xF0FF = 0x00E0 ∨ w &&& 0xF0FF = 0xF00A ∨
     (w &&& 0xF000 = 0x8000 ∧ w &&& 0x000F ∈ [0x8, 0x9, 0xA, 0xB, 0xC, 0xD, 0xF]) ∨
     (w &&& 0xF000 = 0xE000 ∧ w &&& 0x00FF ∉ [0x9E, 0xA1]) ∨
     (w &&& 0xF000 = 0xF000 ∧ w &&& 0x00FF ∉ [0x07, 0x0A, 0x15, 0x18, 0x1E, 0x29, 0x33, 0x55, 0x65])) →
    exec (decode w) s = .next s

/-! ### Class 0, jumps, call and return -/

/-- RET (R81): `PC` is the slot below `SP`, modulo 16, and `SP` that slot's number; the slots keep their content.
That X is ignored in the word is the spec's decision D6. -/
def Obligations.ReturnPopsTheStack : Prop :=
  ∀ k : Nibble, decode (BitVec.ofNat 16 (0x00EE + k.toNat * 256)) = .ret k ∧
    ∀ s : State, ∃ t, exec (.ret k) s = .next t ∧ ∃ p : Nibble, p.toNat = (s.SP.toNat + 15) % 16 ∧
      t.PC = s.slot p ∧ t.SP = p ∧ ChangesOnly [.PC, .SP] s t

/-- SYS (R82): always `UnsupportedOpcode` of the word in `IR` at the address `PC - 2`, the execute phase having written nothing (the
spec's decisions D11 and D12). -/
def Obligations.LegacyCallIsUnsupported : Prop :=
  ∀ nnn : Addr12, (nnn.toNat % 256 ≠ 0xE0 → nnn.toNat % 256 ≠ 0xEE → decode (BitVec.ofNat 16 nnn.toNat) = .sys nnn) ∧
    ∀ s : State, exec (.sys nnn) s = .fault (.unsupportedOpcode s.IR (s.PC - 2) s)

/-- JP NNN (R83). -/
def Obligations.JumpGoesToItsAddress : Prop :=
  ∀ nnn : Addr12, decode (BitVec.ofNat 16 (0x1000 + nnn.toNat)) = .jp nnn ∧
    ∀ s : State, ∃ t, exec (.jp nnn) s = .next t ∧ t.PC.toNat = nnn.toNat ∧ ChangesOnly [.PC] s t

/-- JP V0, NNN (R84): the sum is not reduced to 12 bits. -/
def Obligations.OffsetJumpAddsRegisterZero : Prop :=
  ∀ nnn : Addr12, decode (BitVec.ofNat 16 (0xB000 + nnn.toNat)) = .jpV0 nnn ∧
    ∀ s : State, ∃ t, exec (.jpV0 nnn) s = .next t ∧ t.PC.toNat = nnn.toNat + (s.reg 0).toNat ∧ ChangesOnly [.PC] s t

/-- CALL NNN (R85): pushes `PC`, which is the address after the CALL, wraps `SP` modulo 16, and jumps; no other slot changes. -/
def Obligations.CallPushesAndJumps : Prop :=
  ∀ nnn : Addr12, decode (BitVec.ofNat 16 (0x2000 + nnn.toNat)) = .call nnn ∧
    ∀ s : State, ∃ t, exec (.call nnn) s = .next t ∧ t.PC.toNat = nnn.toNat ∧ t.SP.toNat = (s.SP.toNat + 1) % 16 ∧
      t.slot s.SP = s.PC ∧ (∀ k, k ≠ s.SP → t.slot k = s.slot k) ∧ ChangesOnly [.PC, .SP, .STACK] s t

/-- Nested calls (R86 a, b, c): after any number of calls the last `n` return addresses, `n` at most 16, come back in last-in
first-out order, and `SP` counts modulo 16; so sixteen calls bring it back to its value. -/
def Obligations.NestedCallsReturnInReverseOrder : Prop :=
  ∀ (cs : List (Word × Addr12)) (s : State) (n : Nat), n ≤ cs.length → n ≤ 16 →
    ∃ t u, callsFrom cs s = .next t ∧ t.SP.toNat = (s.SP.toNat + cs.length) % 16 ∧
      returnsFrom n t = some (((cs.map Prod.fst).reverse).take n, u) ∧
      u.SP.toNat = (s.SP.toNat + cs.length - n) % 16

/-! ### Skips -/

/-- SE Vx, NN and SNE Vx, NN (R90, R91): `PC` grows by 2 exactly when the condition holds; nothing else changes. -/
def Obligations.SkipsOnByteCompare : Prop :=
  ∀ (x : Nibble) (nn : Byte),
    decode (BitVec.ofNat 16 (0x3000 + x.toNat * 256 + nn.toNat)) = .seVxNN x nn ∧
    decode (BitVec.ofNat 16 (0x4000 + x.toNat * 256 + nn.toNat)) = .sneVxNN x nn ∧
    ∀ s : State,
      (∃ t, exec (.seVxNN x nn) s = .next t ∧ ChangesOnly [.PC] s t ∧
        (s.reg x = nn → t.PC = s.PC + 2) ∧ (s.reg x ≠ nn → t.PC = s.PC)) ∧
      (∃ t, exec (.sneVxNN x nn) s = .next t ∧ ChangesOnly [.PC] s t ∧
        (s.reg x ≠ nn → t.PC = s.PC + 2) ∧ (s.reg x = nn → t.PC = s.PC))

/-- SE Vx, Vy and SNE Vx, Vy (R92, R93), whatever the low nibble is, which is ignored by the spec's decision D6. -/
def Obligations.SkipsOnRegisterCompare : Prop :=
  ∀ x y n : Nibble,
    decode (BitVec.ofNat 16 (0x5000 + x.toNat * 256 + y.toNat * 16 + n.toNat)) = .seVxVy x y n ∧
    decode (BitVec.ofNat 16 (0x9000 + x.toNat * 256 + y.toNat * 16 + n.toNat)) = .sneVxVy x y n ∧
    ∀ s : State,
      (∃ t, exec (.seVxVy x y n) s = .next t ∧ ChangesOnly [.PC] s t ∧
        (s.reg x = s.reg y → t.PC = s.PC + 2) ∧ (s.reg x ≠ s.reg y → t.PC = s.PC)) ∧
      (∃ t, exec (.sneVxVy x y n) s = .next t ∧ ChangesOnly [.PC] s t ∧
        (s.reg x ≠ s.reg y → t.PC = s.PC + 2) ∧ (s.reg x = s.reg y → t.PC = s.PC))

/-- SKP Vx and SKNP Vx (R140, R141): the key is selected by the low four bits of the register. -/
def Obligations.SkipsOnKeyFlag : Prop :=
  ∀ x : Nibble,
    decode (BitVec.ofNat 16 (0xE09E + x.toNat * 256)) = .skp x ∧
    decode (BitVec.ofNat 16 (0xE0A1 + x.toNat * 256)) = .sknp x ∧
    ∀ s : State, ∃ k : Nibble, k.toNat = (s.reg x).toNat % 16 ∧
      (∃ t, exec (.skp x) s = .next t ∧ ChangesOnly [.PC] s t ∧
        (s.key k = true → t.PC = s.PC + 2) ∧ (s.key k = false → t.PC = s.PC)) ∧
      (∃ t, exec (.sknp x) s = .next t ∧ ChangesOnly [.PC] s t ∧
        (s.key k = false → t.PC = s.PC + 2) ∧ (s.key k = true → t.PC = s.PC))

/-! ### Register loads and the ALU -/

/-- LD Vx, NN, ADD Vx, NN and LD Vx, Vy (R100, R101, R102): one register changes; the sum wraps and no flag is written. -/
def Obligations.LoadsAndByteAddWriteOneRegister : Prop :=
  (∀ (x : Nibble) (nn : Byte),
    decode (BitVec.ofNat 16 (0x6000 + x.toNat * 256 + nn.toNat)) = .ldVxNN x nn ∧
    decode (BitVec.ofNat 16 (0x7000 + x.toNat * 256 + nn.toNat)) = .addVxNN x nn ∧
    ∀ s : State,
      (∃ t, exec (.ldVxNN x nn) s = .next t ∧ t.reg x = nn ∧ RegsChangeOnly [x] s t ∧ ChangesOnly [.x] s t) ∧
      (∃ t, exec (.addVxNN x nn) s = .next t ∧ (t.reg x).toNat = ((s.reg x).toNat + nn.toNat) % 256 ∧
        RegsChangeOnly [x] s t ∧ ChangesOnly [.x] s t)) ∧
  ∀ x y : Nibble,
    decode (BitVec.ofNat 16 (0x8000 + x.toNat * 256 + y.toNat * 16)) = .ldVxVy x y ∧
    ∀ s : State, ∃ t, exec (.ldVxVy x y) s = .next t ∧ t.reg x = s.reg y ∧ RegsChangeOnly [x] s t ∧ ChangesOnly [.x] s t

/-- OR, AND and XOR (R103, R104, R105), bit by bit; `x[15]` is not touched unless it is the destination (the
spec's decision D28). -/
def Obligations.LogicIsBitwiseWithoutFlag : Prop :=
  ∀ x y : Nibble,
    decode (BitVec.ofNat 16 (0x8001 + x.toNat * 256 + y.toNat * 16)) = .orVxVy x y ∧
    decode (BitVec.ofNat 16 (0x8002 + x.toNat * 256 + y.toNat * 16)) = .andVxVy x y ∧
    decode (BitVec.ofNat 16 (0x8003 + x.toNat * 256 + y.toNat * 16)) = .xorVxVy x y ∧
    ∀ s : State,
      (∃ t, exec (.orVxVy x y) s = .next t ∧ RegsChangeOnly [x] s t ∧ ChangesOnly [.x] s t ∧
        ∀ k, k < 8 → (t.reg x).getLsbD k = ((s.reg x).getLsbD k || (s.reg y).getLsbD k)) ∧
      (∃ t, exec (.andVxVy x y) s = .next t ∧ RegsChangeOnly [x] s t ∧ ChangesOnly [.x] s t ∧
        ∀ k, k < 8 → (t.reg x).getLsbD k = ((s.reg x).getLsbD k && (s.reg y).getLsbD k)) ∧
      (∃ t, exec (.xorVxVy x y) s = .next t ∧ RegsChangeOnly [x] s t ∧ ChangesOnly [.x] s t ∧
        ∀ k, k < 8 → (t.reg x).getLsbD k = ((s.reg x).getLsbD k != (s.reg y).getLsbD k))

/-- ADD Vx, Vy (R106): the sum modulo 256, and in `x[15]`, written last, 1 exactly when the sum exceeds 255. With X = 15 the carry
is what remains: the forms with X or Y = 15 follow the spec's decision D7. -/
def Obligations.AddWritesSumThenCarry : Prop :=
  ∀ x y : Nibble, decode (BitVec.ofNat 16 (0x8004 + x.toNat * 256 + y.toNat * 16)) = .addVxVy x y ∧
    ∀ s : State, ∃ t, exec (.addVxVy x y) s = .next t ∧
      (x ≠ 15 → (t.reg x).toNat = ((s.reg x).toNat + (s.reg y).toNat) % 256) ∧
      t.reg 15 = (if (s.reg x).toNat + (s.reg y).toNat > 255 then 1 else 0) ∧
      RegsChangeOnly [x, 15] s t ∧ ChangesOnly [.x] s t

/-- SUB Vx, Vy (R107): the difference modulo 256, and in `x[15]`, written last, 1 exactly when there is no borrow.
The forms with X or Y = 15 follow the spec's decision D7. -/
def Obligations.SubWritesDifferenceThenNoBorrow : Prop :=
  ∀ x y : Nibble, decode (BitVec.ofNat 16 (0x8005 + x.toNat * 256 + y.toNat * 16)) = .subVxVy x y ∧
    ∀ s : State, ∃ t, exec (.subVxVy x y) s = .next t ∧
      (x ≠ 15 → (t.reg x).toNat = ((s.reg x).toNat + 256 - (s.reg y).toNat) % 256) ∧
      t.reg 15 = (if (s.reg x).toNat ≥ (s.reg y).toNat then 1 else 0) ∧
      RegsChangeOnly [x, 15] s t ∧ ChangesOnly [.x] s t

/-- SUBN Vx, Vy (R108): as SUB with the operands exchanged; the destination is still `x[X]`. The forms with X or Y = 15
follow the spec's decision D7. -/
def Obligations.ReverseSubSwapsTheOperands : Prop :=
  ∀ x y : Nibble, decode (BitVec.ofNat 16 (0x8007 + x.toNat * 256 + y.toNat * 16)) = .subnVxVy x y ∧
    ∀ s : State, ∃ t, exec (.subnVxVy x y) s = .next t ∧
      (x ≠ 15 → (t.reg x).toNat = ((s.reg y).toNat + 256 - (s.reg x).toNat) % 256) ∧
      t.reg 15 = (if (s.reg y).toNat ≥ (s.reg x).toNat then 1 else 0) ∧
      RegsChangeOnly [x, 15] s t ∧ ChangesOnly [.x] s t

/-- SHR Vx, Vy (R109): the source is `x[Y]`; bit 0 goes to `x[15]` first, the half to `x[X]` last, so that with X = 15 the half
remains. The forms with X or Y = 15 follow the spec's decision D7. -/
def Obligations.ShiftRightTakesTheSecondRegister : Prop :=
  ∀ x y : Nibble, decode (BitVec.ofNat 16 (0x8006 + x.toNat * 256 + y.toNat * 16)) = .shrVxVy x y ∧
    ∀ s : State, ∃ t, exec (.shrVxVy x y) s = .next t ∧
      (t.reg x).toNat = (s.reg y).toNat / 2 ∧
      (x ≠ 15 → (t.reg 15).toNat = (s.reg y).toNat % 2) ∧
      RegsChangeOnly [x, 15] s t ∧ ChangesOnly [.x] s t

/-- SHL Vx, Vy (R110): the source is `x[Y]`; bit 7 goes to `x[15]` first, the double modulo 256 to `x[X]` last. The forms with X or
Y = 15 follow the spec's decision D7. -/
def Obligations.ShiftLeftTakesTheSecondRegister : Prop :=
  ∀ x y : Nibble, decode (BitVec.ofNat 16 (0x800E + x.toNat * 256 + y.toNat * 16)) = .shlVxVy x y ∧
    ∀ s : State, ∃ t, exec (.shlVxVy x y) s = .next t ∧
      (t.reg x).toNat = (s.reg y).toNat * 2 % 256 ∧
      (x ≠ 15 → (t.reg 15).toNat = (s.reg y).toNat / 128) ∧
      RegsChangeOnly [x, 15] s t ∧ ChangesOnly [.x] s t

/-! ### Index load and the generator -/

/-- LD I, NNN (R120). -/
def Obligations.IndexLoadSetsTheIndex : Prop :=
  ∀ nnn : Addr12, decode (BitVec.ofNat 16 (0xA000 + nnn.toNat)) = .ldINNN nnn ∧
    ∀ s : State, ∃ t, exec (.ldINNN nnn) s = .next t ∧ t.I.toNat = nnn.toNat ∧ ChangesOnly [.I] s t

/-- RND Vx, NN (R121, R122): the generator advances by the linear congruence modulo 2^32, also with a zero mask, and the top byte
of its NEW state, masked, goes to the register. -/
def Obligations.RandomAdvancesAndMasksTheTopByte : Prop :=
  ∀ (x : Nibble) (nn : Byte), decode (BitVec.ofNat 16 (0xC000 + x.toNat * 256 + nn.toNat)) = .rndVxNN x nn ∧
    ∀ s : State, ∃ t, exec (.rndVxNN x nn) s = .next t ∧
      t.RNG.toNat = (s.RNG.toNat * 1103515245 + 12345) % 2 ^ 32 ∧
      t.reg x = BitVec.ofNat 8 (t.RNG.toNat / 2 ^ 24) &&& nn ∧
      RegsChangeOnly [x] s t ∧ ChangesOnly [.x, .RNG] s t

/-- The generator's state depends only on how many RNDs have executed, whatever else the program or the host has done, until the
next RESET or LOAD (R121 d, R123). -/
def Obligations.GeneratorCountsRandomInstructionsOnly : Prop :=
  ∀ (os : List HostOp) (s : State), .reset ∉ os → (∀ bytes, .load bytes ∉ os) →
    (runSchedule os s).1.RNG = rngNext^[rndCount os s] s.RNG

/-! ### Draw -/

/-- DRW Vx, Vy, N (R130): framebuffer row `q` is XORed with the mask of sprite row `q - vy` exactly when that sprite row exists, its
byte lies inside memory and `q` is on the screen; `x[15]` is 1 exactly when a pixel that was on was toggled; `DIRTY` is set. The
coordinates are the values before the flag is cleared (the spec's decision D7); the clip bound is D9, the mask D18. -/
def Obligations.DrawTogglesUnclippedRows : Prop :=
  ∀ x y n : Nibble, decode (BitVec.ofNat 16 (0xD000 + x.toNat * 256 + y.toNat * 16 + n.toNat)) = .drw x y n ∧
    ∀ s : State, ∃ t, exec (.drw x y n) s = .next t ∧
      (∀ (q : Nat) (hq : q < 32), t.FB[q] =
        if (s.reg y).toNat ≤ q ∧ q < (s.reg y).toNat + n.toNat ∧ s.I.toNat + (q - (s.reg y).toNat) ≤ 4095
        then s.FB[q] ^^^ rowMask (s.readByte (s.I.toNat + (q - (s.reg y).toNat))) (s.reg x) else s.FB[q]) ∧
      (t.reg 15 = 0 ∨ t.reg 15 = 1) ∧
      (t.reg 15 = 1 ↔ ∃ (q : Nat) (hq : q < 32), s.FB[q] &&& ~~~t.FB[q] ≠ 0) ∧
      t.DIRTY = true ∧ RegsChangeOnly [15] s t ∧ ChangesOnly [.x, .FB, .DIRTY] s t

/-- `row_mask` (R131, the spec's decision D18): column `c` is on exactly when it is one of the eight from `vx` on, and then shows
bit `vx + 7 - c` of the byte; column `c` is bit `63 - c` (R24). -/
def Obligations.RowMaskPlacesTheByteAtItsColumn : Prop :=
  ∀ (b vx : Byte) (c : Nat), c < 64 →
    (rowMask b vx).getLsbD (63 - c) =
      (decide (vx.toNat ≤ c) && decide (c ≤ vx.toNat + 7) && b.getLsbD (vx.toNat + 7 - c))

/-- XOR composition (R130 k): the same draw again at the same place restores the framebuffer, and it reports a collision if the
first one toggled a pixel and found none. -/
def Obligations.DrawingTwiceRestoresTheScreen : Prop :=
  ∀ (x y n : Nibble) (s t u : State), exec (.drw x y n) s = .next t → exec (.drw x y n) t = .next u →
    t.reg x = s.reg x → t.reg y = s.reg y →
    u.FB = s.FB ∧ (t.FB ≠ s.FB → t.reg 15 = 0 → u.reg 15 = 1)

/-! ### Class F -/

/-- LD Vx, DT, LD DT, Vx and LD ST, Vx (R150, R152, R153). -/
def Obligations.TimerTransfersMoveOneByte : Prop :=
  ∀ x : Nibble,
    decode (BitVec.ofNat 16 (0xF007 + x.toNat * 256)) = .ldVxDT x ∧
    decode (BitVec.ofNat 16 (0xF015 + x.toNat * 256)) = .ldDTVx x ∧
    decode (BitVec.ofNat 16 (0xF018 + x.toNat * 256)) = .ldSTVx x ∧
    ∀ s : State,
      (∃ t, exec (.ldVxDT x) s = .next t ∧ t.reg x = s.DT ∧ RegsChangeOnly [x] s t ∧ ChangesOnly [.x] s t) ∧
      (∃ t, exec (.ldDTVx x) s = .next t ∧ t.DT = s.reg x ∧ ChangesOnly [.DT] s t) ∧
      (∃ t, exec (.ldSTVx x) s = .next t ∧ t.ST = s.reg x ∧ ChangesOnly [.ST] s t)

/-- ADD I, Vx (R154): modulo 65536 (the spec's decision D19), no flag. -/
def Obligations.IndexAddWrapsWithoutFlag : Prop :=
  ∀ x : Nibble, decode (BitVec.ofNat 16 (0xF01E + x.toNat * 256)) = .addIVx x ∧
    ∀ s : State, ∃ t, exec (.addIVx x) s = .next t ∧
      t.I.toNat = (s.I.toNat + (s.reg x).toNat) % 65536 ∧ ChangesOnly [.I] s t

/-- LD F, Vx (R155): `FONT_BASE + 5 * x[X]` with the whole register (the spec's decision D29), for every `FONT_BASE` R6 allows; the
sum never wraps. -/
def Obligations.GlyphAddressUsesTheWholeRegister : Prop :=
  ∀ x : Nibble, decode (BitVec.ofNat 16 (0xF029 + x.toNat * 256)) = .ldFVx x ∧
    ∀ s : State, ∃ t, exec (.ldFVx x) s = .next t ∧
      t.I.toNat = Config.fontBase.val + 5 * (s.reg x).toNat ∧ ChangesOnly [.I] s t

/-- LD B, Vx (R156): with `I` at most 4093 the three decimal digits of the register are stored at `I`, `I + 1` and `I + 2`, and no
other byte changes; above 4093 the instruction is the error `AddressOutOfBounds(I)` and writes nothing (the spec's decision
D10). -/
def Obligations.DecimalDigitsAreStoredOrNothing : Prop :=
  ∀ x : Nibble, decode (BitVec.ofNat 16 (0xF033 + x.toNat * 256)) = .ldBVx x ∧
    ∀ s : State,
      (s.I.toNat ≤ 4093 → ∃ t, exec (.ldBVx x) s = .next t ∧
        (∃ h d o : Nat, (s.reg x).toNat = 100 * h + 10 * d + o ∧ d < 10 ∧ o < 10 ∧
          (t.readByte s.I.toNat).toNat = h ∧ (t.readByte (s.I.toNat + 1)).toNat = d ∧
          (t.readByte (s.I.toNat + 2)).toNat = o) ∧
        (∀ a, a < s.I.toNat ∨ s.I.toNat + 2 < a → t.readByte a = s.readByte a) ∧ ChangesOnly [.MEM] s t) ∧
      (4093 < s.I.toNat → exec (.ldBVx x) s = .fault (.addressOutOfBounds s.I s))

/-- LD [I], Vx (R157): register `i`, for `i` from 0 to X, is stored at `(I + i) mod 4096`, the address `wrappedAddr s.I i`; every
other byte, and `I`, are unchanged. -/
def Obligations.RegisterDumpStoresTheRange : Prop :=
  ∀ x : Nibble, decode (BitVec.ofNat 16 (0xF055 + x.toNat * 256)) = .ldMemVx x ∧
    ∀ s : State, ∃ t, exec (.ldMemVx x) s = .next t ∧
      (∀ i : Nibble, i.toNat ≤ x.toNat → wrappedAddr s.I i.toNat = (s.I.toNat + i.toNat) % 4096 ∧
        t.readByte (wrappedAddr s.I i.toNat) = s.reg i) ∧
      (∀ a, (∀ i : Nibble, i.toNat ≤ x.toNat → wrappedAddr s.I i.toNat ≠ a) → t.readByte a = s.readByte a) ∧
      ChangesOnly [.MEM] s t

/-- LD Vx, [I] (R158): register `i`, for `i` from 0 to X, is loaded from `(I + i) mod 4096`; registers above X, `I` and memory are
unchanged. -/
def Obligations.RegisterLoadFillsTheRange : Prop :=
  ∀ x : Nibble, decode (BitVec.ofNat 16 (0xF065 + x.toNat * 256)) = .ldVxMem x ∧
    ∀ s : State, ∃ t, exec (.ldVxMem x) s = .next t ∧
      (∀ i : Nibble, i.toNat ≤ x.toNat → t.reg i = s.readByte ((s.I.toNat + i.toNat) % 4096)) ∧
      (∀ i : Nibble, x.toNat < i.toNat → t.reg i = s.reg i) ∧ ChangesOnly [.x] s t

/-- A dump followed by a load with the same X and `I` restores the registers 0 to X, whatever happened to the registers in between
(R158 d). -/
def Obligations.DumpThenLoadRestoresRegisters : Prop :=
  ∀ (x : Nibble) (s t t' u : State), exec (.ldMemVx x) s = .next t → t'.I = s.I → t'.MEM = t.MEM →
    exec (.ldVxMem x) t' = .next u → ∀ i : Nibble, i.toNat ≤ x.toNat → u.reg i = s.reg i

/-! ### Memory -/

/-- Two memories in the canonical form that read alike at every address of `MEM` are the same list, so equal contents are equal
states. The canonical form is the model's own representation (notes/assumptions/3.md). -/
def Obligations.CanonicalMemoriesReadingAlikeAreEqual : Prop :=
  ∀ m n : Memory, m.wf → n.wf → (∀ a, a < 4096 → m.read a = n.read a) → m = n

/-- Self-modifying code (R53, R212): after LD [I], Vx has stored at least two registers at an `I` from which a fetch is possible,
a STEP with `PC` there runs the instruction whose bytes are `x[0]` and `x[1]`. That a store into code is visible to the next fetch is
the spec's decision D21 (notes/assumptions/6.md). -/
def Obligations.StoredBytesAreFetchedNext : Prop :=
  ∀ (x : Nibble) (s t u : State), 1 ≤ x.toNat → s.I.toNat ≤ 4094 → exec (.ldMemVx x) s = .next t →
    u.PC = s.I → u.MEM = t.MEM →
    ∃ v, step u = exec (decode (BitVec.ofNat 16 ((s.reg 0).toNat * 256 + (s.reg 1).toNat))) v ∧
      v.IR.toNat = (s.reg 0).toNat * 256 + (s.reg 1).toNat ∧ v.PC = u.PC + 2 ∧ ChangesOnly [.IR, .PC] u v

/-- A jump to itself is a fixed point: after one STEP, every further STEP leaves the state unchanged (R205 a, decision D27). -/
def Obligations.SelfJumpIsAFixedPoint : Prop :=
  ∀ s : State, s.PC.toNat ≤ 4094 → s.fetchWord = BitVec.ofNat 16 (0x1000 + s.PC.toNat) →
    step s = .next { s with IR := s.fetchWord } ∧
    step { s with IR := s.fetchWord } = .next { s with IR := s.fetchWord }

/-- A word placed where the next STEP fetches is the instruction that STEP runs: the bytes of the word are all of memory that
changes, and `PC` moves only if no fetch was possible there. -/
def Obligations.PlacedWordRunsNext : Prop :=
  ∀ (s : State) (w : Nat), w < 65536 →
    decodeTableWord 16 w = some (decode (BitVec.ofNat 16 w)) ∧
    ∃ v, step (s.withFetchWord 16 w) = exec (decode (BitVec.ofNat 16 w)) v ∧ v.IR = BitVec.ofNat 16 w ∧
      (s.PC.toNat ≤ 4094 → v.PC = s.PC + 2) ∧ (4094 < s.PC.toNat → v.PC = 0x202) ∧
      (∀ a, a + 2 ≠ v.PC.toNat → a + 1 ≠ v.PC.toNat → v.readByte a = s.readByte a) ∧
      ChangesOnly [.PC, .IR, .MEM] s v

/-! ### Host operations -/

/-- TICK (R173): each timer counts down by exactly 1 and stays at 0; the event comes exactly when `ST` goes from 1 to 0; nothing
else changes. -/
def Obligations.TickCountsDownToZero : Prop :=
  ∀ s : State,
    (perform .tick s).1.DT.toNat = s.DT.toNat - 1 ∧ (perform .tick s).1.ST.toNat = s.ST.toNat - 1 ∧
    (s.ST.toNat = 1 → (perform .tick s).2 = .soundElapsed) ∧ (s.ST.toNat ≠ 1 → (perform .tick s).2 = .none) ∧
    ChangesOnly [.DT, .ST] s (perform .tick s).1

/-- The event over time (R177): a sound timer at `n`, `n` at least 1, is silent for `n - 1` TICKs, elapses on the n-th, and stays
silent however many follow. -/
def Obligations.SoundElapsesOnceOnTheNthTick : Prop :=
  ∀ (s : State) (m : Nat), 1 ≤ s.ST.toNat →
    (runSchedule (List.replicate (s.ST.toNat + m) .tick) s).2 =
      List.replicate (s.ST.toNat - 1) .none ++ .soundElapsed :: List.replicate m .none

/-- SET_KEY and CLEAR_DIRTY write one element each and answer nothing (R174, R175; the key index is four bits wide by the spec's
decision D25). -/
def Obligations.KeyAndDirtyOperationsWriteOneElement : Prop :=
  ∀ (s : State) (k : Nibble) (p : Bool),
    (perform (.setKey k p) s).2 = .none ∧ (perform (.setKey k p) s).1.key k = p ∧
    (∀ j, j ≠ k → (perform (.setKey k p) s).1.key j = s.key j) ∧ ChangesOnly [.KEY] s (perform (.setKey k p) s).1 ∧
    (perform .clearDirty s).2 = .none ∧ (perform .clearDirty s).1.DIRTY = false ∧
    ChangesOnly [.DIRTY] s (perform .clearDirty s).1

/-- The read accessors are pure: whatever accessors a schedule holds, the state after it is the state after the schedule without
them, and each answers its element's value (R176). -/
def Obligations.AccessorsArePure : Prop :=
  (∀ s : State, (perform .framebuffer s).2 = .rows s.FB ∧ (perform .isDirty s).2 = .dirty s.DIRTY ∧
    (perform .getPC s).2 = .word s.PC ∧ (perform .getI s).2 = .word s.I ∧ (perform .getSP s).2 = .nibble s.SP ∧
    (perform .getDT s).2 = .byte s.DT) ∧
  ∀ (os : List HostOp) (s : State),
    (runSchedule os s).1 =
      (runSchedule (os.filter fun o => !([.framebuffer, .isDirty, .getPC, .getI, .getSP, .getDT].contains o)) s).1

/-- RESET (R31, R200), from whatever state: everything is zero but `PC`, the generator's seed and the font table, which lies at
`FONT_BASE`. The elements the source's own list does not name follow the spec's decisions D13 and D14; the parameters are free
(notes/assumptions/1.md). -/
def Obligations.ResetGivesTheSpecifiedValues : Prop :=
  ∀ s t : State, t = (perform .reset s).1 →
    (perform .reset s).2 = .none ∧ (∀ r, t.reg r = 0) ∧ t.I = 0 ∧ t.PC = 0x200 ∧ t.SP = 0 ∧ (∀ k, t.slot k = 0) ∧ t.DT = 0 ∧
    t.ST = 0 ∧ (∀ k, t.key k = false) ∧ (∀ (q : Nat) (h : q < 32), t.FB[q] = 0) ∧ t.DIRTY = false ∧ t.IR = 0 ∧
    t.RNG = Config.prngSeed ∧
    (∀ (j : Nat) (h : j < 80), t.readByte (Config.fontBase.val + j) = Config.font[j]) ∧
    ∀ a, a < Config.fontBase.val ∨ Config.fontBase.val + 80 ≤ a → t.readByte a = 0

/-- LOAD (R201, R202; the bound is the spec's decision D9): an image of at most 3584 bytes lies from 0x200 on in the reset state
and nothing else differs from it; a longer one leaves exactly the reset state and answers `ProgramTooLarge`. -/
def Obligations.LoadPlacesTheImageOrNothing : Prop :=
  ∀ (bytes : List Byte) (s : State),
    (bytes.length ≤ 3584 → (perform (.load bytes) s).2 = .ok ∧
      (∀ (j : Nat) (h : j < bytes.length), (perform (.load bytes) s).1.readByte (0x200 + j) = bytes[j]) ∧
      (∀ a, a < 0x200 ∨ 0x200 + bytes.length ≤ a → (perform (.load bytes) s).1.readByte a = State.reset.readByte a) ∧
      ChangesOnly [.MEM] State.reset (perform (.load bytes) s).1) ∧
    (3584 < bytes.length → perform (.load bytes) s = (State.reset, .programTooLarge bytes.length))

/-- The host may go on after a SYS (R184, R185, decision D11): a STEP that meets one answers `UnsupportedOpcode`, whose code is 1
(R180, the spec's decision D12, notes/assumptions/6.md), and leaves a state from which the next STEP fetches two bytes further,
nothing but `IR` and `PC` having changed. -/
def Obligations.HostStepsOnAfterUnsupportedOpcode : Prop :=
  ∀ (s : State) (nnn : Addr12), s.PC.toNat ≤ 4094 → decode s.fetchWord = .sys nnn →
    (perform .step s).2 = .unsupportedOpcode s.fetchWord s.PC ∧
    (perform .step s).2.code = some 1 ∧
    (perform .step s).1.PC.toNat = s.PC.toNat + 2 ∧ (perform .step s).1.IR = s.fetchWord ∧
    ChangesOnly [.IR, .PC] s (perform .step s).1 ∧
    (s.PC.toNat + 2 ≤ 4094 → step (perform .step s).1 =
      exec (decode (s.readWord (s.PC.toNat + 2))) { s with IR := s.readWord (s.PC.toNat + 2), PC := s.PC + 4 })

/-- The host may go on after the error of LD B, Vx (R184, R185, decisions D10 and D11): a STEP that meets one with `I > 4093`
answers `AddressOutOfBounds(I)`, whose code is 2 (R180, the spec's decision D12, notes/assumptions/6.md), and leaves a state from
which the next STEP fetches two bytes further, nothing but `IR` and `PC` having changed. -/
def Obligations.HostStepsOnAfterDigitStoreError : Prop :=
  ∀ (s : State) (x : Nibble), s.PC.toNat ≤ 4094 → decode s.fetchWord = .ldBVx x → 4093 < s.I.toNat →
    (perform .step s).2 = .addressOutOfBounds s.I ∧
    (perform .step s).2.code = some 2 ∧
    (perform .step s).1.PC.toNat = s.PC.toNat + 2 ∧ (perform .step s).1.IR = s.fetchWord ∧
    ChangesOnly [.IR, .PC] s (perform .step s).1 ∧
    (s.PC.toNat + 2 ≤ 4094 → step (perform .step s).1 =
      exec (decode (s.readWord (s.PC.toNat + 2))) { s with IR := s.readWord (s.PC.toNat + 2), PC := s.PC + 4 })

/-- What the host's STEP answers when no execute-phase error occurs: the next state of the step with `OK` (R172), or, with `PC`
where no fetch is possible, the same state with `AddressOutOfBounds(PC)`, and so at every further STEP (R183, decisions D8 and
D11). The codes 0 and 2 are the spec's decision D12 (R180, notes/assumptions/6.md). -/
def Obligations.HostStepAnswersTheStep : Prop :=
  ∀ s : State,
    (∀ t, step s = .next t → perform .step s = (t, .ok) ∧ (perform .step s).2.code = some 0) ∧
    (4094 < s.PC.toNat → perform .step s = (s, .addressOutOfBounds s.PC) ∧ (perform .step s).2.code = some 2 ∧
      ∀ n, runSchedule (List.replicate n .step) s = (s, List.replicate n (.addressOutOfBounds s.PC)))
end

