-- ==== Sys2Proof/Laws/Encoding.lean ====
section
/-! SUPPORT. The fields of a word that was put together from fields, and a word put together from its own fields (R61). -/

namespace Sys2Proof

/-! ### Fields of a composed word -/

section Fields
variable (c x y n : Nibble) (nn : Byte) (nnn : Addr12)

@[simp] theorem fieldC_wordXYN : fieldC (wordXYN c x y n) = c := by
  ext i hi; simp [fieldC, wordXYN]; grind
@[simp] theorem fieldX_wordXYN : fieldX (wordXYN c x y n) = x := by
  ext i hi; simp [fieldX, wordXYN]; grind
@[simp] theorem fieldY_wordXYN : fieldY (wordXYN c x y n) = y := by
  ext i hi; simp [fieldY, wordXYN]; grind
@[simp] theorem fieldN_wordXYN : fieldN (wordXYN c x y n) = n := by
  ext i hi; simp [fieldN, wordXYN]; grind
@[simp] theorem fieldC_wordXNN : fieldC (wordXNN c x nn) = c := by
  ext i hi; simp [fieldC, wordXNN]; grind
@[simp] theorem fieldX_wordXNN : fieldX (wordXNN c x nn) = x := by
  ext i hi; simp [fieldX, wordXNN]; grind
@[simp] theorem fieldNN_wordXNN : fieldNN (wordXNN c x nn) = nn := by
  ext i hi; simp [fieldNN, wordXNN]; grind
@[simp] theorem fieldC_wordNNN : fieldC (wordNNN c nnn) = c := by
  ext i hi; simp [fieldC, wordNNN]; grind
@[simp] theorem fieldNNN_wordNNN : fieldNNN (wordNNN c nnn) = nnn := by
  ext i hi; simp [fieldNNN, wordNNN]; grind
@[simp] theorem fieldNN_wordNNN : fieldNN (wordNNN c nnn) = nnn.extractLsb' 0 8 := by
  ext i hi; simp [fieldNN, wordNNN]; grind

@[simp] theorem fieldNN_wordXYN : fieldNN (wordXYN c x y n) = (y ++ n : BitVec (4 + 4)) := by
  ext i hi; simp [fieldNN, wordXYN]; grind

end Fields

/-! ### A word put together from its own fields -/

section Words
variable (w : Word)

@[simp] theorem wordXYN_fields : wordXYN (fieldC w) (fieldX w) (fieldY w) (fieldN w) = w := by
  ext i hi; simp [fieldC, fieldX, fieldY, fieldN, wordXYN]; grind
@[simp] theorem wordXNN_fields : wordXNN (fieldC w) (fieldX w) (fieldNN w) = w := by
  ext i hi; simp [fieldC, fieldX, fieldNN, wordXNN]; grind
@[simp] theorem wordNNN_fields : wordNNN (fieldC w) (fieldNNN w) = w := by
  ext i hi; simp [fieldC, fieldNNN, wordNNN]; grind
@[simp] theorem fieldNNN_low : (fieldNNN w).extractLsb' 0 8 = fieldNN w := by
  ext i hi; simp [fieldNNN, fieldNN]

end Words

/-! ### Words as numbers -/

theorem toNat_append_eq {m k : Nat} (a : BitVec m) (b : BitVec k) : (a ++ b).toNat = a.toNat * 2 ^ k + b.toNat := by
  rw [BitVec.toNat_append, Nat.shiftLeft_eq, Nat.mul_comm, ← Nat.two_pow_add_eq_or_of_lt b.isLt]

theorem wordXYN_toNat (c x y n : Nibble) :
    (wordXYN c x y n).toNat = c.toNat * 4096 + x.toNat * 256 + y.toNat * 16 + n.toNat := by
  simp only [wordXYN, toNat_append_eq]; omega

theorem wordXNN_toNat (c x : Nibble) (nn : Byte) :
    (wordXNN c x nn).toNat = c.toNat * 4096 + x.toNat * 256 + nn.toNat := by
  simp only [wordXNN, toNat_append_eq]; omega

theorem wordNNN_toNat (c : Nibble) (nnn : Addr12) : (wordNNN c nnn).toNat = c.toNat * 4096 + nnn.toNat := by
  simp only [wordNNN, toNat_append_eq]; rfl

/-- The big-endian word of two bytes as a number (R42). -/
theorem wordOfBytes_toNat (hi lo : Byte) : (wordOfBytes hi lo).toNat = hi.toNat * 256 + lo.toNat := by
  simp only [wordOfBytes, toNat_append_eq]; rfl

@[simp] theorem wordOfBytes_high_low (w : Word) : wordOfBytes (highByte w) (lowByte w) = w := by
  ext i hi; simp [wordOfBytes, highByte, lowByte]; grind

/-- The decoder on the bytes of an instruction reads its word (R42, R60). -/
theorem decodeBytes_encodeBytes (i : Instr) (rest : List Byte) :
    decodeBytes (encodeBytes i ++ rest) = .ok (decode (encode i), rest) := by
  simp [encodeBytes, decodeBytes]

end Sys2Proof
end

