-- ==== Sys2Proof/Laws/State.lean ====
section
/-! SUPPORT. One lemma per element of the state and update, true by rfl, and the same for the accessors of the elements that
hold many entries, so that no later proof unfolds a record update. Then the reads after a write of the same element. -/

namespace Sys2Proof.Machine

variable (s : State)

/-! ### setReg -/

@[simp] theorem State.setReg_I (r : Nibble) (v : Byte) : (s.setReg r v).I = s.I := rfl
@[simp] theorem State.setReg_PC (r : Nibble) (v : Byte) : (s.setReg r v).PC = s.PC := rfl
@[simp] theorem State.setReg_SP (r : Nibble) (v : Byte) : (s.setReg r v).SP = s.SP := rfl
@[simp] theorem State.setReg_STACK (r : Nibble) (v : Byte) : (s.setReg r v).STACK = s.STACK := rfl
@[simp] theorem State.setReg_DT (r : Nibble) (v : Byte) : (s.setReg r v).DT = s.DT := rfl
@[simp] theorem State.setReg_ST (r : Nibble) (v : Byte) : (s.setReg r v).ST = s.ST := rfl
@[simp] theorem State.setReg_KEY (r : Nibble) (v : Byte) : (s.setReg r v).KEY = s.KEY := rfl
@[simp] theorem State.setReg_FB (r : Nibble) (v : Byte) : (s.setReg r v).FB = s.FB := rfl
@[simp] theorem State.setReg_DIRTY (r : Nibble) (v : Byte) : (s.setReg r v).DIRTY = s.DIRTY := rfl
@[simp] theorem State.setReg_RNG (r : Nibble) (v : Byte) : (s.setReg r v).RNG = s.RNG := rfl
@[simp] theorem State.setReg_IR (r : Nibble) (v : Byte) : (s.setReg r v).IR = s.IR := rfl
@[simp] theorem State.setReg_MEM (r : Nibble) (v : Byte) : (s.setReg r v).MEM = s.MEM := rfl
@[simp] theorem State.setReg_slot (r : Nibble) (v : Byte) (j : Nibble) : (s.setReg r v).slot j = s.slot j := rfl
@[simp] theorem State.setReg_key (r : Nibble) (v : Byte) (j : Nibble) : (s.setReg r v).key j = s.key j := rfl
@[simp] theorem State.setReg_readByte (r : Nibble) (v : Byte) (b : Nat) : (s.setReg r v).readByte b = s.readByte b := rfl

/-! ### setX -/

@[simp] theorem State.setX_x (v : Vector Byte 16) : (s.setX v).x = v := rfl
@[simp] theorem State.setX_I (v : Vector Byte 16) : (s.setX v).I = s.I := rfl
@[simp] theorem State.setX_PC (v : Vector Byte 16) : (s.setX v).PC = s.PC := rfl
@[simp] theorem State.setX_SP (v : Vector Byte 16) : (s.setX v).SP = s.SP := rfl
@[simp] theorem State.setX_STACK (v : Vector Byte 16) : (s.setX v).STACK = s.STACK := rfl
@[simp] theorem State.setX_DT (v : Vector Byte 16) : (s.setX v).DT = s.DT := rfl
@[simp] theorem State.setX_ST (v : Vector Byte 16) : (s.setX v).ST = s.ST := rfl
@[simp] theorem State.setX_KEY (v : Vector Byte 16) : (s.setX v).KEY = s.KEY := rfl
@[simp] theorem State.setX_FB (v : Vector Byte 16) : (s.setX v).FB = s.FB := rfl
@[simp] theorem State.setX_DIRTY (v : Vector Byte 16) : (s.setX v).DIRTY = s.DIRTY := rfl
@[simp] theorem State.setX_RNG (v : Vector Byte 16) : (s.setX v).RNG = s.RNG := rfl
@[simp] theorem State.setX_IR (v : Vector Byte 16) : (s.setX v).IR = s.IR := rfl
@[simp] theorem State.setX_MEM (v : Vector Byte 16) : (s.setX v).MEM = s.MEM := rfl
@[simp] theorem State.setX_slot (v : Vector Byte 16) (j : Nibble) : (s.setX v).slot j = s.slot j := rfl
@[simp] theorem State.setX_key (v : Vector Byte 16) (j : Nibble) : (s.setX v).key j = s.key j := rfl
@[simp] theorem State.setX_readByte (v : Vector Byte 16) (b : Nat) : (s.setX v).readByte b = s.readByte b := rfl

/-! ### setI -/

@[simp] theorem State.setI_x (v : Word) : (s.setI v).x = s.x := rfl
@[simp] theorem State.setI_I (v : Word) : (s.setI v).I = v := rfl
@[simp] theorem State.setI_PC (v : Word) : (s.setI v).PC = s.PC := rfl
@[simp] theorem State.setI_SP (v : Word) : (s.setI v).SP = s.SP := rfl
@[simp] theorem State.setI_STACK (v : Word) : (s.setI v).STACK = s.STACK := rfl
@[simp] theorem State.setI_DT (v : Word) : (s.setI v).DT = s.DT := rfl
@[simp] theorem State.setI_ST (v : Word) : (s.setI v).ST = s.ST := rfl
@[simp] theorem State.setI_KEY (v : Word) : (s.setI v).KEY = s.KEY := rfl
@[simp] theorem State.setI_FB (v : Word) : (s.setI v).FB = s.FB := rfl
@[simp] theorem State.setI_DIRTY (v : Word) : (s.setI v).DIRTY = s.DIRTY := rfl
@[simp] theorem State.setI_RNG (v : Word) : (s.setI v).RNG = s.RNG := rfl
@[simp] theorem State.setI_IR (v : Word) : (s.setI v).IR = s.IR := rfl
@[simp] theorem State.setI_MEM (v : Word) : (s.setI v).MEM = s.MEM := rfl
@[simp] theorem State.setI_reg (v : Word) (q : Nibble) : (s.setI v).reg q = s.reg q := rfl
@[simp] theorem State.setI_slot (v : Word) (j : Nibble) : (s.setI v).slot j = s.slot j := rfl
@[simp] theorem State.setI_key (v : Word) (j : Nibble) : (s.setI v).key j = s.key j := rfl
@[simp] theorem State.setI_readByte (v : Word) (b : Nat) : (s.setI v).readByte b = s.readByte b := rfl

/-! ### setPC -/

@[simp] theorem State.setPC_x (v : Word) : (s.setPC v).x = s.x := rfl
@[simp] theorem State.setPC_I (v : Word) : (s.setPC v).I = s.I := rfl
@[simp] theorem State.setPC_PC (v : Word) : (s.setPC v).PC = v := rfl
@[simp] theorem State.setPC_SP (v : Word) : (s.setPC v).SP = s.SP := rfl
@[simp] theorem State.setPC_STACK (v : Word) : (s.setPC v).STACK = s.STACK := rfl
@[simp] theorem State.setPC_DT (v : Word) : (s.setPC v).DT = s.DT := rfl
@[simp] theorem State.setPC_ST (v : Word) : (s.setPC v).ST = s.ST := rfl
@[simp] theorem State.setPC_KEY (v : Word) : (s.setPC v).KEY = s.KEY := rfl
@[simp] theorem State.setPC_FB (v : Word) : (s.setPC v).FB = s.FB := rfl
@[simp] theorem State.setPC_DIRTY (v : Word) : (s.setPC v).DIRTY = s.DIRTY := rfl
@[simp] theorem State.setPC_RNG (v : Word) : (s.setPC v).RNG = s.RNG := rfl
@[simp] theorem State.setPC_IR (v : Word) : (s.setPC v).IR = s.IR := rfl
@[simp] theorem State.setPC_MEM (v : Word) : (s.setPC v).MEM = s.MEM := rfl
@[simp] theorem State.setPC_reg (v : Word) (q : Nibble) : (s.setPC v).reg q = s.reg q := rfl
@[simp] theorem State.setPC_slot (v : Word) (j : Nibble) : (s.setPC v).slot j = s.slot j := rfl
@[simp] theorem State.setPC_key (v : Word) (j : Nibble) : (s.setPC v).key j = s.key j := rfl
@[simp] theorem State.setPC_readByte (v : Word) (b : Nat) : (s.setPC v).readByte b = s.readByte b := rfl

/-! ### setSP -/

@[simp] theorem State.setSP_x (v : Nibble) : (s.setSP v).x = s.x := rfl
@[simp] theorem State.setSP_I (v : Nibble) : (s.setSP v).I = s.I := rfl
@[simp] theorem State.setSP_PC (v : Nibble) : (s.setSP v).PC = s.PC := rfl
@[simp] theorem State.setSP_SP (v : Nibble) : (s.setSP v).SP = v := rfl
@[simp] theorem State.setSP_STACK (v : Nibble) : (s.setSP v).STACK = s.STACK := rfl
@[simp] theorem State.setSP_DT (v : Nibble) : (s.setSP v).DT = s.DT := rfl
@[simp] theorem State.setSP_ST (v : Nibble) : (s.setSP v).ST = s.ST := rfl
@[simp] theorem State.setSP_KEY (v : Nibble) : (s.setSP v).KEY = s.KEY := rfl
@[simp] theorem State.setSP_FB (v : Nibble) : (s.setSP v).FB = s.FB := rfl
@[simp] theorem State.setSP_DIRTY (v : Nibble) : (s.setSP v).DIRTY = s.DIRTY := rfl
@[simp] theorem State.setSP_RNG (v : Nibble) : (s.setSP v).RNG = s.RNG := rfl
@[simp] theorem State.setSP_IR (v : Nibble) : (s.setSP v).IR = s.IR := rfl
@[simp] theorem State.setSP_MEM (v : Nibble) : (s.setSP v).MEM = s.MEM := rfl
@[simp] theorem State.setSP_reg (v : Nibble) (q : Nibble) : (s.setSP v).reg q = s.reg q := rfl
@[simp] theorem State.setSP_slot (v : Nibble) (j : Nibble) : (s.setSP v).slot j = s.slot j := rfl
@[simp] theorem State.setSP_key (v : Nibble) (j : Nibble) : (s.setSP v).key j = s.key j := rfl
@[simp] theorem State.setSP_readByte (v : Nibble) (b : Nat) : (s.setSP v).readByte b = s.readByte b := rfl

/-! ### setSlot -/

@[simp] theorem State.setSlot_x (k : Nibble) (v : Word) : (s.setSlot k v).x = s.x := rfl
@[simp] theorem State.setSlot_I (k : Nibble) (v : Word) : (s.setSlot k v).I = s.I := rfl
@[simp] theorem State.setSlot_PC (k : Nibble) (v : Word) : (s.setSlot k v).PC = s.PC := rfl
@[simp] theorem State.setSlot_SP (k : Nibble) (v : Word) : (s.setSlot k v).SP = s.SP := rfl
@[simp] theorem State.setSlot_DT (k : Nibble) (v : Word) : (s.setSlot k v).DT = s.DT := rfl
@[simp] theorem State.setSlot_ST (k : Nibble) (v : Word) : (s.setSlot k v).ST = s.ST := rfl
@[simp] theorem State.setSlot_KEY (k : Nibble) (v : Word) : (s.setSlot k v).KEY = s.KEY := rfl
@[simp] theorem State.setSlot_FB (k : Nibble) (v : Word) : (s.setSlot k v).FB = s.FB := rfl
@[simp] theorem State.setSlot_DIRTY (k : Nibble) (v : Word) : (s.setSlot k v).DIRTY = s.DIRTY := rfl
@[simp] theorem State.setSlot_RNG (k : Nibble) (v : Word) : (s.setSlot k v).RNG = s.RNG := rfl
@[simp] theorem State.setSlot_IR (k : Nibble) (v : Word) : (s.setSlot k v).IR = s.IR := rfl
@[simp] theorem State.setSlot_MEM (k : Nibble) (v : Word) : (s.setSlot k v).MEM = s.MEM := rfl
@[simp] theorem State.setSlot_reg (k : Nibble) (v : Word) (q : Nibble) : (s.setSlot k v).reg q = s.reg q := rfl
@[simp] theorem State.setSlot_key (k : Nibble) (v : Word) (j : Nibble) : (s.setSlot k v).key j = s.key j := rfl
@[simp] theorem State.setSlot_readByte (k : Nibble) (v : Word) (b : Nat) : (s.setSlot k v).readByte b = s.readByte b := rfl

/-! ### setDT -/

@[simp] theorem State.setDT_x (v : Byte) : (s.setDT v).x = s.x := rfl
@[simp] theorem State.setDT_I (v : Byte) : (s.setDT v).I = s.I := rfl
@[simp] theorem State.setDT_PC (v : Byte) : (s.setDT v).PC = s.PC := rfl
@[simp] theorem State.setDT_SP (v : Byte) : (s.setDT v).SP = s.SP := rfl
@[simp] theorem State.setDT_STACK (v : Byte) : (s.setDT v).STACK = s.STACK := rfl
@[simp] theorem State.setDT_DT (v : Byte) : (s.setDT v).DT = v := rfl
@[simp] theorem State.setDT_ST (v : Byte) : (s.setDT v).ST = s.ST := rfl
@[simp] theorem State.setDT_KEY (v : Byte) : (s.setDT v).KEY = s.KEY := rfl
@[simp] theorem State.setDT_FB (v : Byte) : (s.setDT v).FB = s.FB := rfl
@[simp] theorem State.setDT_DIRTY (v : Byte) : (s.setDT v).DIRTY = s.DIRTY := rfl
@[simp] theorem State.setDT_RNG (v : Byte) : (s.setDT v).RNG = s.RNG := rfl
@[simp] theorem State.setDT_IR (v : Byte) : (s.setDT v).IR = s.IR := rfl
@[simp] theorem State.setDT_MEM (v : Byte) : (s.setDT v).MEM = s.MEM := rfl
@[simp] theorem State.setDT_reg (v : Byte) (q : Nibble) : (s.setDT v).reg q = s.reg q := rfl
@[simp] theorem State.setDT_slot (v : Byte) (j : Nibble) : (s.setDT v).slot j = s.slot j := rfl
@[simp] theorem State.setDT_key (v : Byte) (j : Nibble) : (s.setDT v).key j = s.key j := rfl
@[simp] theorem State.setDT_readByte (v : Byte) (b : Nat) : (s.setDT v).readByte b = s.readByte b := rfl

/-! ### setST -/

@[simp] theorem State.setST_x (v : Byte) : (s.setST v).x = s.x := rfl
@[simp] theorem State.setST_I (v : Byte) : (s.setST v).I = s.I := rfl
@[simp] theorem State.setST_PC (v : Byte) : (s.setST v).PC = s.PC := rfl
@[simp] theorem State.setST_SP (v : Byte) : (s.setST v).SP = s.SP := rfl
@[simp] theorem State.setST_STACK (v : Byte) : (s.setST v).STACK = s.STACK := rfl
@[simp] theorem State.setST_DT (v : Byte) : (s.setST v).DT = s.DT := rfl
@[simp] theorem State.setST_ST (v : Byte) : (s.setST v).ST = v := rfl
@[simp] theorem State.setST_KEY (v : Byte) : (s.setST v).KEY = s.KEY := rfl
@[simp] theorem State.setST_FB (v : Byte) : (s.setST v).FB = s.FB := rfl
@[simp] theorem State.setST_DIRTY (v : Byte) : (s.setST v).DIRTY = s.DIRTY := rfl
@[simp] theorem State.setST_RNG (v : Byte) : (s.setST v).RNG = s.RNG := rfl
@[simp] theorem State.setST_IR (v : Byte) : (s.setST v).IR = s.IR := rfl
@[simp] theorem State.setST_MEM (v : Byte) : (s.setST v).MEM = s.MEM := rfl
@[simp] theorem State.setST_reg (v : Byte) (q : Nibble) : (s.setST v).reg q = s.reg q := rfl
@[simp] theorem State.setST_slot (v : Byte) (j : Nibble) : (s.setST v).slot j = s.slot j := rfl
@[simp] theorem State.setST_key (v : Byte) (j : Nibble) : (s.setST v).key j = s.key j := rfl
@[simp] theorem State.setST_readByte (v : Byte) (b : Nat) : (s.setST v).readByte b = s.readByte b := rfl

/-! ### setKey -/

@[simp] theorem State.setKey_x (k : Nibble) (p : Bool) : (s.setKey k p).x = s.x := rfl
@[simp] theorem State.setKey_I (k : Nibble) (p : Bool) : (s.setKey k p).I = s.I := rfl
@[simp] theorem State.setKey_PC (k : Nibble) (p : Bool) : (s.setKey k p).PC = s.PC := rfl
@[simp] theorem State.setKey_SP (k : Nibble) (p : Bool) : (s.setKey k p).SP = s.SP := rfl
@[simp] theorem State.setKey_STACK (k : Nibble) (p : Bool) : (s.setKey k p).STACK = s.STACK := rfl
@[simp] theorem State.setKey_DT (k : Nibble) (p : Bool) : (s.setKey k p).DT = s.DT := rfl
@[simp] theorem State.setKey_ST (k : Nibble) (p : Bool) : (s.setKey k p).ST = s.ST := rfl
@[simp] theorem State.setKey_FB (k : Nibble) (p : Bool) : (s.setKey k p).FB = s.FB := rfl
@[simp] theorem State.setKey_DIRTY (k : Nibble) (p : Bool) : (s.setKey k p).DIRTY = s.DIRTY := rfl
@[simp] theorem State.setKey_RNG (k : Nibble) (p : Bool) : (s.setKey k p).RNG = s.RNG := rfl
@[simp] theorem State.setKey_IR (k : Nibble) (p : Bool) : (s.setKey k p).IR = s.IR := rfl
@[simp] theorem State.setKey_MEM (k : Nibble) (p : Bool) : (s.setKey k p).MEM = s.MEM := rfl
@[simp] theorem State.setKey_reg (k : Nibble) (p : Bool) (q : Nibble) : (s.setKey k p).reg q = s.reg q := rfl
@[simp] theorem State.setKey_slot (k : Nibble) (p : Bool) (j : Nibble) : (s.setKey k p).slot j = s.slot j := rfl
@[simp] theorem State.setKey_readByte (k : Nibble) (p : Bool) (b : Nat) : (s.setKey k p).readByte b = s.readByte b := rfl

/-! ### setFB -/

@[simp] theorem State.setFB_x (fb : Vector Scanline 32) : (s.setFB fb).x = s.x := rfl
@[simp] theorem State.setFB_I (fb : Vector Scanline 32) : (s.setFB fb).I = s.I := rfl
@[simp] theorem State.setFB_PC (fb : Vector Scanline 32) : (s.setFB fb).PC = s.PC := rfl
@[simp] theorem State.setFB_SP (fb : Vector Scanline 32) : (s.setFB fb).SP = s.SP := rfl
@[simp] theorem State.setFB_STACK (fb : Vector Scanline 32) : (s.setFB fb).STACK = s.STACK := rfl
@[simp] theorem State.setFB_DT (fb : Vector Scanline 32) : (s.setFB fb).DT = s.DT := rfl
@[simp] theorem State.setFB_ST (fb : Vector Scanline 32) : (s.setFB fb).ST = s.ST := rfl
@[simp] theorem State.setFB_KEY (fb : Vector Scanline 32) : (s.setFB fb).KEY = s.KEY := rfl
@[simp] theorem State.setFB_FB (fb : Vector Scanline 32) : (s.setFB fb).FB = fb := rfl
@[simp] theorem State.setFB_DIRTY (fb : Vector Scanline 32) : (s.setFB fb).DIRTY = s.DIRTY := rfl
@[simp] theorem State.setFB_RNG (fb : Vector Scanline 32) : (s.setFB fb).RNG = s.RNG := rfl
@[simp] theorem State.setFB_IR (fb : Vector Scanline 32) : (s.setFB fb).IR = s.IR := rfl
@[simp] theorem State.setFB_MEM (fb : Vector Scanline 32) : (s.setFB fb).MEM = s.MEM := rfl
@[simp] theorem State.setFB_reg (fb : Vector Scanline 32) (q : Nibble) : (s.setFB fb).reg q = s.reg q := rfl
@[simp] theorem State.setFB_slot (fb : Vector Scanline 32) (j : Nibble) : (s.setFB fb).slot j = s.slot j := rfl
@[simp] theorem State.setFB_key (fb : Vector Scanline 32) (j : Nibble) : (s.setFB fb).key j = s.key j := rfl
@[simp] theorem State.setFB_readByte (fb : Vector Scanline 32) (b : Nat) : (s.setFB fb).readByte b = s.readByte b := rfl

/-! ### setDirty -/

@[simp] theorem State.setDirty_x (p : Bool) : (s.setDirty p).x = s.x := rfl
@[simp] theorem State.setDirty_I (p : Bool) : (s.setDirty p).I = s.I := rfl
@[simp] theorem State.setDirty_PC (p : Bool) : (s.setDirty p).PC = s.PC := rfl
@[simp] theorem State.setDirty_SP (p : Bool) : (s.setDirty p).SP = s.SP := rfl
@[simp] theorem State.setDirty_STACK (p : Bool) : (s.setDirty p).STACK = s.STACK := rfl
@[simp] theorem State.setDirty_DT (p : Bool) : (s.setDirty p).DT = s.DT := rfl
@[simp] theorem State.setDirty_ST (p : Bool) : (s.setDirty p).ST = s.ST := rfl
@[simp] theorem State.setDirty_KEY (p : Bool) : (s.setDirty p).KEY = s.KEY := rfl
@[simp] theorem State.setDirty_FB (p : Bool) : (s.setDirty p).FB = s.FB := rfl
@[simp] theorem State.setDirty_DIRTY (p : Bool) : (s.setDirty p).DIRTY = p := rfl
@[simp] theorem State.setDirty_RNG (p : Bool) : (s.setDirty p).RNG = s.RNG := rfl
@[simp] theorem State.setDirty_IR (p : Bool) : (s.setDirty p).IR = s.IR := rfl
@[simp] theorem State.setDirty_MEM (p : Bool) : (s.setDirty p).MEM = s.MEM := rfl
@[simp] theorem State.setDirty_reg (p : Bool) (q : Nibble) : (s.setDirty p).reg q = s.reg q := rfl
@[simp] theorem State.setDirty_slot (p : Bool) (j : Nibble) : (s.setDirty p).slot j = s.slot j := rfl
@[simp] theorem State.setDirty_key (p : Bool) (j : Nibble) : (s.setDirty p).key j = s.key j := rfl
@[simp] theorem State.setDirty_readByte (p : Bool) (b : Nat) : (s.setDirty p).readByte b = s.readByte b := rfl

/-! ### setRNG -/

@[simp] theorem State.setRNG_x (v : BitVec 32) : (s.setRNG v).x = s.x := rfl
@[simp] theorem State.setRNG_I (v : BitVec 32) : (s.setRNG v).I = s.I := rfl
@[simp] theorem State.setRNG_PC (v : BitVec 32) : (s.setRNG v).PC = s.PC := rfl
@[simp] theorem State.setRNG_SP (v : BitVec 32) : (s.setRNG v).SP = s.SP := rfl
@[simp] theorem State.setRNG_STACK (v : BitVec 32) : (s.setRNG v).STACK = s.STACK := rfl
@[simp] theorem State.setRNG_DT (v : BitVec 32) : (s.setRNG v).DT = s.DT := rfl
@[simp] theorem State.setRNG_ST (v : BitVec 32) : (s.setRNG v).ST = s.ST := rfl
@[simp] theorem State.setRNG_KEY (v : BitVec 32) : (s.setRNG v).KEY = s.KEY := rfl
@[simp] theorem State.setRNG_FB (v : BitVec 32) : (s.setRNG v).FB = s.FB := rfl
@[simp] theorem State.setRNG_DIRTY (v : BitVec 32) : (s.setRNG v).DIRTY = s.DIRTY := rfl
@[simp] theorem State.setRNG_RNG (v : BitVec 32) : (s.setRNG v).RNG = v := rfl
@[simp] theorem State.setRNG_IR (v : BitVec 32) : (s.setRNG v).IR = s.IR := rfl
@[simp] theorem State.setRNG_MEM (v : BitVec 32) : (s.setRNG v).MEM = s.MEM := rfl
@[simp] theorem State.setRNG_reg (v : BitVec 32) (q : Nibble) : (s.setRNG v).reg q = s.reg q := rfl
@[simp] theorem State.setRNG_slot (v : BitVec 32) (j : Nibble) : (s.setRNG v).slot j = s.slot j := rfl
@[simp] theorem State.setRNG_key (v : BitVec 32) (j : Nibble) : (s.setRNG v).key j = s.key j := rfl
@[simp] theorem State.setRNG_readByte (v : BitVec 32) (b : Nat) : (s.setRNG v).readByte b = s.readByte b := rfl

/-! ### setIR -/

@[simp] theorem State.setIR_x (v : Word) : (s.setIR v).x = s.x := rfl
@[simp] theorem State.setIR_I (v : Word) : (s.setIR v).I = s.I := rfl
@[simp] theorem State.setIR_PC (v : Word) : (s.setIR v).PC = s.PC := rfl
@[simp] theorem State.setIR_SP (v : Word) : (s.setIR v).SP = s.SP := rfl
@[simp] theorem State.setIR_STACK (v : Word) : (s.setIR v).STACK = s.STACK := rfl
@[simp] theorem State.setIR_DT (v : Word) : (s.setIR v).DT = s.DT := rfl
@[simp] theorem State.setIR_ST (v : Word) : (s.setIR v).ST = s.ST := rfl
@[simp] theorem State.setIR_KEY (v : Word) : (s.setIR v).KEY = s.KEY := rfl
@[simp] theorem State.setIR_FB (v : Word) : (s.setIR v).FB = s.FB := rfl
@[simp] theorem State.setIR_DIRTY (v : Word) : (s.setIR v).DIRTY = s.DIRTY := rfl
@[simp] theorem State.setIR_RNG (v : Word) : (s.setIR v).RNG = s.RNG := rfl
@[simp] theorem State.setIR_IR (v : Word) : (s.setIR v).IR = v := rfl
@[simp] theorem State.setIR_MEM (v : Word) : (s.setIR v).MEM = s.MEM := rfl
@[simp] theorem State.setIR_reg (v : Word) (q : Nibble) : (s.setIR v).reg q = s.reg q := rfl
@[simp] theorem State.setIR_slot (v : Word) (j : Nibble) : (s.setIR v).slot j = s.slot j := rfl
@[simp] theorem State.setIR_key (v : Word) (j : Nibble) : (s.setIR v).key j = s.key j := rfl
@[simp] theorem State.setIR_readByte (v : Word) (b : Nat) : (s.setIR v).readByte b = s.readByte b := rfl

/-! ### setMEM -/

@[simp] theorem State.setMEM_x (m : Memory) : (s.setMEM m).x = s.x := rfl
@[simp] theorem State.setMEM_I (m : Memory) : (s.setMEM m).I = s.I := rfl
@[simp] theorem State.setMEM_PC (m : Memory) : (s.setMEM m).PC = s.PC := rfl
@[simp] theorem State.setMEM_SP (m : Memory) : (s.setMEM m).SP = s.SP := rfl
@[simp] theorem State.setMEM_STACK (m : Memory) : (s.setMEM m).STACK = s.STACK := rfl
@[simp] theorem State.setMEM_DT (m : Memory) : (s.setMEM m).DT = s.DT := rfl
@[simp] theorem State.setMEM_ST (m : Memory) : (s.setMEM m).ST = s.ST := rfl
@[simp] theorem State.setMEM_KEY (m : Memory) : (s.setMEM m).KEY = s.KEY := rfl
@[simp] theorem State.setMEM_FB (m : Memory) : (s.setMEM m).FB = s.FB := rfl
@[simp] theorem State.setMEM_DIRTY (m : Memory) : (s.setMEM m).DIRTY = s.DIRTY := rfl
@[simp] theorem State.setMEM_RNG (m : Memory) : (s.setMEM m).RNG = s.RNG := rfl
@[simp] theorem State.setMEM_IR (m : Memory) : (s.setMEM m).IR = s.IR := rfl
@[simp] theorem State.setMEM_MEM (m : Memory) : (s.setMEM m).MEM = m := rfl
@[simp] theorem State.setMEM_reg (m : Memory) (q : Nibble) : (s.setMEM m).reg q = s.reg q := rfl
@[simp] theorem State.setMEM_slot (m : Memory) (j : Nibble) : (s.setMEM m).slot j = s.slot j := rfl
@[simp] theorem State.setMEM_key (m : Memory) (j : Nibble) : (s.setMEM m).key j = s.key j := rfl

/-! ### writeByte -/

@[simp] theorem State.writeByte_x (a : Nat) (v : Byte) : (s.writeByte a v).x = s.x := rfl
@[simp] theorem State.writeByte_I (a : Nat) (v : Byte) : (s.writeByte a v).I = s.I := rfl
@[simp] theorem State.writeByte_PC (a : Nat) (v : Byte) : (s.writeByte a v).PC = s.PC := rfl
@[simp] theorem State.writeByte_SP (a : Nat) (v : Byte) : (s.writeByte a v).SP = s.SP := rfl
@[simp] theorem State.writeByte_STACK (a : Nat) (v : Byte) : (s.writeByte a v).STACK = s.STACK := rfl
@[simp] theorem State.writeByte_DT (a : Nat) (v : Byte) : (s.writeByte a v).DT = s.DT := rfl
@[simp] theorem State.writeByte_ST (a : Nat) (v : Byte) : (s.writeByte a v).ST = s.ST := rfl
@[simp] theorem State.writeByte_KEY (a : Nat) (v : Byte) : (s.writeByte a v).KEY = s.KEY := rfl
@[simp] theorem State.writeByte_FB (a : Nat) (v : Byte) : (s.writeByte a v).FB = s.FB := rfl
@[simp] theorem State.writeByte_DIRTY (a : Nat) (v : Byte) : (s.writeByte a v).DIRTY = s.DIRTY := rfl
@[simp] theorem State.writeByte_RNG (a : Nat) (v : Byte) : (s.writeByte a v).RNG = s.RNG := rfl
@[simp] theorem State.writeByte_IR (a : Nat) (v : Byte) : (s.writeByte a v).IR = s.IR := rfl
@[simp] theorem State.writeByte_MEM (a : Nat) (v : Byte) : (s.writeByte a v).MEM = s.MEM.write a v := rfl
@[simp] theorem State.writeByte_reg (a : Nat) (v : Byte) (q : Nibble) : (s.writeByte a v).reg q = s.reg q := rfl
@[simp] theorem State.writeByte_slot (a : Nat) (v : Byte) (j : Nibble) : (s.writeByte a v).slot j = s.slot j := rfl
@[simp] theorem State.writeByte_key (a : Nat) (v : Byte) (j : Nibble) : (s.writeByte a v).key j = s.key j := rfl

/-! ### Reading what was written -/

theorem State.reg_setReg (r q : Nibble) (v : Byte) : (s.setReg r v).reg q = if r = q then v else s.reg q := by
  simp only [State.setReg, State.reg, Vector.getElem_set, BitVec.toNat_inj]

@[simp] theorem State.reg_setReg_same (r : Nibble) (v : Byte) : (s.setReg r v).reg r = v := by simp [State.reg_setReg]

theorem State.reg_setReg_other {r q : Nibble} (v : Byte) (h : r ≠ q) : (s.setReg r v).reg q = s.reg q := by
  simp [State.reg_setReg, h]

theorem State.reg_setFlag_same (v : Byte) : (s.setFlag v).reg 15 = v := by simp

theorem State.reg_setFlag_other {q : Nibble} (v : Byte) (h : q ≠ 15) : (s.setFlag v).reg q = s.reg q :=
  State.reg_setReg_other s v h.symm

theorem State.slot_setSlot (k j : Nibble) (v : Word) : (s.setSlot k v).slot j = if k = j then v else s.slot j := by
  simp only [State.setSlot, State.slot, Vector.getElem_set, BitVec.toNat_inj]

@[simp] theorem State.slot_setSlot_same (k : Nibble) (v : Word) : (s.setSlot k v).slot k = v := by simp [State.slot_setSlot]

theorem State.key_setKey (k j : Nibble) (p : Bool) : (s.setKey k p).key j = if k = j then p else s.key j := by
  simp only [State.setKey, State.key, Vector.getElem_set, BitVec.toNat_inj]

@[simp] theorem State.key_setKey_same (k : Nibble) (p : Bool) : (s.setKey k p).key k = p := by simp [State.key_setKey]

@[simp] theorem State.setX_reg (v : Vector Byte 16) (q : Nibble) : (s.setX v).reg q = v[q.toNat]'q.isLt := rfl

@[simp] theorem State.setMEM_readByte (m : Memory) (a : Nat) : (s.setMEM m).readByte a = m.read a := rfl

/-! ### Writing back what an element holds -/

@[simp] theorem State.setPC_self : s.setPC s.PC = s := rfl

end Sys2Proof.Machine
end

