-- ==== Sys2Proof/Laws/Memory.lean ====
section
/-! SUPPORT. Memory: a read after a write, the canonical form and that every memory operation keeps it. -/

namespace Sys2Proof.Machine

/-! ### Reading after a write (R47, R51 c) -/

theorem Memory.read_insert (m : Memory) (a b : Nat) (v : Byte) :
    (m.insert a v).read b = if a = b then v else m.read b := by
  induction m with
  | nil => simp [Memory.insert, Memory.read]
  | cons c m ih =>
    obtain ⟨k, w⟩ := c
    simp only [Memory.insert]
    split
    · simp only [Memory.read]
    · split
      · rename_i _ h; subst h; simp only [Memory.read]; split <;> simp_all
      · simp only [Memory.read, ih]; split <;> split <;> simp_all

theorem Memory.read_erase (m : Memory) (a b : Nat) :
    (m.erase a).read b = if a = b then resetByte b else m.read b := by
  induction m with
  | nil => simp [Memory.erase, Memory.read]
  | cons c m ih =>
    obtain ⟨k, w⟩ := c
    simp only [Memory.erase, List.filter_cons] at ih ⊢
    by_cases h : k = a
    · subst h; simp only [bne_self_eq_false, Bool.false_eq_true, ↓reduceIte, ih, Memory.read]; split <;> simp_all
    · simp only [bne_iff_ne, ne_eq, h, not_false_eq_true, ↓reduceIte, Memory.read, ih]; split <;> split <;> simp_all

/-- A read returns the latest value written to its address and is not affected by a write to another. -/
theorem Memory.read_write (m : Memory) (a b : Nat) (v : Byte) :
    (m.write a v).read b = if a = b then v else m.read b := by
  unfold Memory.write
  split
  · rename_i h; rw [Memory.read_erase, h]; split <;> simp_all
  · exact Memory.read_insert m a b v

@[simp] theorem Memory.read_write_same (m : Memory) (a : Nat) (v : Byte) : (m.write a v).read a = v := by
  simp [Memory.read_write]

theorem Memory.read_write_other (m : Memory) {a b : Nat} (v : Byte) (h : a ≠ b) : (m.write a v).read b = m.read b := by
  simp [Memory.read_write, h]

theorem State.readByte_writeByte (s : State) (a b : Nat) (v : Byte) :
    (s.writeByte a v).readByte b = if a = b then v else s.readByte b := Memory.read_write s.MEM a b v

theorem Memory.read_writeList (m : Memory) (a b : Nat) (bs : List Byte) :
    (m.writeList a bs).read b = if h : a ≤ b ∧ b < a + bs.length then bs[b - a] else m.read b := by
  induction bs generalizing m a with
  | nil => simp [Memory.writeList]
  | cons v bs ih =>
    simp only [Memory.writeList, ih, Memory.read_write, List.length_cons]
    by_cases hb : a = b
    · subst hb
      rw [dif_neg (by omega), dif_pos (by omega)]
      simp
    · by_cases hi : a + 1 ≤ b ∧ b < a + 1 + bs.length
      · rw [dif_pos hi, dif_pos (by omega)]
        have : b - a = (b - (a + 1)) + 1 := by omega
        simp [this]
      · rw [dif_neg hi, dif_neg (by omega), if_neg hb]

/-! ### The canonical form is kept -/

theorem Memory.mem_insert {m : Memory} {a : Nat} {v : Byte} {c : Host.Cell} (h : c ∈ m.insert a v) :
    c = (a, v) ∨ c ∈ m := by
  induction m with
  | nil => simpa [Memory.insert] using h
  | cons d m ih =>
    obtain ⟨k, w⟩ := d
    simp only [Memory.insert] at h
    split at h
    · simpa using h
    · split at h
      · rcases List.mem_cons.mp h with h | h
        · exact .inl h
        · exact .inr (List.mem_cons_of_mem _ h)
      · rcases List.mem_cons.mp h with h | h
        · exact .inr (h ▸ List.mem_cons_self)
        · exact (ih h).imp id (List.mem_cons_of_mem _)

theorem Memory.insert_sorted {m : Memory} (a : Nat) (v : Byte) (h : m.Pairwise fun c d => c.1 < d.1) :
    (m.insert a v).Pairwise fun c d => c.1 < d.1 := by
  induction m with
  | nil => simp [Memory.insert]
  | cons d m ih =>
    obtain ⟨k, w⟩ := d
    obtain ⟨hk, hm⟩ := List.pairwise_cons.mp h
    simp only [Memory.insert]
    split
    · rename_i hak
      refine List.pairwise_cons.mpr ⟨fun c hc => ?_, h⟩
      rcases List.mem_cons.mp hc with rfl | hc
      · exact hak
      · exact Nat.lt_trans hak (hk c hc)
    · split
      · rename_i _ hak; subst hak; exact List.pairwise_cons.mpr ⟨hk, hm⟩
      · refine List.pairwise_cons.mpr ⟨fun c hc => ?_, ih hm⟩
        rcases Memory.mem_insert hc with rfl | hc
        · simp only; omega
        · exact hk c hc

/-- Writing inside memory keeps the canonical form. -/
theorem Memory.wf_write {m : Memory} (h : m.wf) {a : Nat} (ha : a < 4096) (v : Byte) : (m.write a v).wf := by
  obtain ⟨hs, hc⟩ := h
  unfold Memory.write
  split
  · exact ⟨hs.filter _, fun c hm => hc c (List.mem_filter.mp hm).1⟩
  · refine ⟨Memory.insert_sorted a v hs, fun c hm => ?_⟩
    rcases Memory.mem_insert hm with rfl | hm
    · exact ⟨ha, by assumption⟩
    · exact hc c hm

theorem Memory.wf_writeList {m : Memory} (h : m.wf) {a : Nat} {bs : List Byte} (ha : a + bs.length ≤ 4096) :
    (m.writeList a bs).wf := by
  induction bs generalizing m a with
  | nil => exact h
  | cons v bs ih =>
    simp only [List.length_cons] at ha
    exact ih (Memory.wf_write h (by omega) v) (by omega)

theorem wrappedAddr_lt (i0 : Word) (k : Nat) : wrappedAddr i0 k < 4096 := Nat.mod_lt _ (by decide)

theorem wf_dumpRegs {m : Memory} (h : m.wf) (x : Vector Byte 16) (i0 : Word) (k : Nat) : (dumpRegs x i0 k m).wf := by
  induction k with
  | zero => exact h
  | succ k ih => exact Memory.wf_write ih (wrappedAddr_lt i0 k) _

theorem State.wf_writeByte {s : State} (h : s.MEM.wf) {a : Nat} (ha : a < 4096) (v : Byte) : (s.writeByte a v).MEM.wf :=
  Memory.wf_write h ha v

theorem State.wf_withFetchWord {s : State} (h : s.MEM.wf) (nbits w : Nat) : (s.withFetchWord nbits w).MEM.wf := by
  unfold State.withFetchWord State.writeWord
  split <;> exact Memory.wf_write (Memory.wf_write h (by omega) _) (by omega) _

/-- Reset memory lists nothing and is in the canonical form. -/
theorem reset_memory_wf : State.reset.MEM.wf := ⟨List.Pairwise.nil, by simp [State.reset]⟩

/-! ### Reset contents -/

/-- `resetByte` is the spec's table: the font where it lies, 0 elsewhere (R31, R200). -/
theorem resetByte_eq (a : Nat) : resetByte a =
    if h : Config.fontBase.val ≤ a ∧ a < Config.fontBase.val + 80 then Config.font[a - Config.fontBase.val] else 0 := by
  have hb := Config.fontBase.isLt
  unfold resetByte
  split
  · rfl
  · rw [dif_neg (by omega)]

/-- From 0x200 on, memory is zero after RESET (R45). -/
theorem resetByte_of_entry_le {a : Nat} (h : 0x200 ≤ a) : resetByte a = 0 := by
  unfold resetByte; rw [if_neg (by omega)]

end Sys2Proof.Machine
end

