-- ==== Sys2Proof/Laws/Ops.lean ====
section
/-! SUPPORT. What each shared operation does, said once: fetch, stack, skip, errors, drawing loop, register dump and load, the
host's STEP. -/

namespace Sys2Proof.Machine

/-! ### Fetch (R172) -/

@[simp] theorem State.fetched_PC (s : State) : s.fetched.PC = s.PC + 2 := rfl
@[simp] theorem State.fetched_IR (s : State) : s.fetched.IR = s.fetchWord := rfl

/-- The fetch phase changes `IR` and `PC` only. -/
theorem State.fetched_eq (s : State) : s.fetched = { s with IR := s.fetchWord, PC := s.PC + 2 } := rfl

/-- A fetched instruction executes. -/
theorem step_of_canFetch {s : State} (h : s.canFetch) : step s = exec (decode s.fetchWord) s.fetched := by
  unfold step; rw [if_neg (by omega)]

/-- A fetch outside memory is an error and changes nothing. -/
theorem step_of_not_canFetch {s : State} (h : ¬ s.canFetch) : step s = .fault (.addressOutOfBounds s.PC s) := by
  unfold step; rw [if_pos (by omega)]; rfl

/-- A step that answers a next state has fetched and executed. -/
theorem step_next {s t : State} (h : step s = .next t) : s.canFetch ∧ exec (decode s.fetchWord) s.fetched = .next t := by
  by_cases hc : s.canFetch
  · exact ⟨hc, step_of_canFetch hc ▸ h⟩
  · rw [step_of_not_canFetch hc] at h; cases h

/-! ### Stack and skips -/

@[simp] theorem State.push_SP (s : State) (v : Word) : (s.push v).SP = s.SP + 1 := rfl
@[simp] theorem State.push_PC (s : State) (v : Word) : (s.push v).PC = s.PC := rfl
theorem State.push_slot (s : State) (v : Word) (k : Nibble) : (s.push v).slot k = if s.SP = k then v else s.slot k :=
  State.slot_setSlot s s.SP k v

@[simp] theorem State.skipIf_PC (s : State) (c : Bool) : (s.skipIf c).PC = if c then s.PC + 2 else s.PC := rfl

/-! ### Errors -/

/-- LD B, Vx with all three addresses inside memory. -/
theorem exec_ldBVx_of_le {s : State} (x : Nibble) (h : s.I.toNat ≤ 4093) :
    exec (.ldBVx x) s = .next (s.storeDigits s.I (s.reg x)) := if_neg (by omega)

/-- LD B, Vx with an address outside memory. -/
theorem exec_ldBVx_of_gt {s : State} (x : Nibble) (h : 4093 < s.I.toNat) :
    exec (.ldBVx x) s = .fault (.addressOutOfBounds s.I s) := if_pos h

/-- What an instruction can answer: a next state, or one of the two errors with the state unchanged by the execute phase
(R181, R182, R184). -/
theorem exec_cases (i : Instr) (s : State) :
    (∃ t, exec i s = .next t) ∨
    (∃ nnn, i = .sys nnn) ∧ exec i s = .fault (.unsupportedOpcode s.IR (s.PC - 2) s) ∨
    (∃ x, i = .ldBVx x) ∧ 4093 < s.I.toNat ∧ exec i s = .fault (.addressOutOfBounds s.I s) := by
  cases i
  case sys => exact .inr (.inl ⟨⟨_, rfl⟩, rfl⟩)
  case ldBVx x =>
    by_cases h : s.I.toNat ≤ 4093
    · exact .inl ⟨_, exec_ldBVx_of_le x h⟩
    · exact .inr (.inr ⟨⟨_, rfl⟩, by omega, exec_ldBVx_of_gt x (by omega)⟩)
  all_goals exact .inl ⟨_, rfl⟩

/-- An LD B, Vx that completes has stored the digits. -/
theorem exec_ldBVx_next {s t : State} {x : Nibble} (h : exec (.ldBVx x) s = .next t) :
    s.I.toNat ≤ 4093 ∧ t = s.storeDigits s.I (s.reg x) := by
  by_cases hI : s.I.toNat ≤ 4093
  · rw [exec_ldBVx_of_le x hI] at h
    exact ⟨hI, (Host.Outcome.next.inj h).symm⟩
  · rw [exec_ldBVx_of_gt x (by omega)] at h; cases h

/-! ### Decimal digits (R156) -/

/-- `storeDigits` changes memory only. -/
theorem State.storeDigits_eq (s : State) (i0 : Word) (v : Byte) :
    s.storeDigits i0 v = s.setMEM (((s.MEM.write i0.toNat (hundredsDigit v)).write (i0.toNat + 1) (tensDigit v)).write
      (i0.toNat + 2) (onesDigit v)) := rfl

theorem State.storeDigits_readByte (s : State) (i0 : Word) (v : Byte) (a : Nat) :
    (s.storeDigits i0 v).readByte a =
      if a = i0.toNat then hundredsDigit v
      else if a = i0.toNat + 1 then tensDigit v
      else if a = i0.toNat + 2 then onesDigit v
      else s.readByte a := by
  rw [State.storeDigits_eq, State.setMEM_readByte, Memory.read_write, Memory.read_write, Memory.read_write]
  by_cases h0 : a = i0.toNat
  · rw [if_neg (by omega), if_neg (by omega), if_pos h0.symm, if_pos h0]
  · by_cases h1 : a = i0.toNat + 1
    · rw [if_neg (by omega), if_pos h1.symm, if_neg h0, if_pos h1]
    · by_cases h2 : a = i0.toNat + 2
      · rw [if_pos h2.symm, if_neg h0, if_neg h1, if_pos h2]
      · rw [if_neg (by omega), if_neg (by omega), if_neg (by omega), if_neg h0, if_neg h1, if_neg h2]; rfl

theorem State.wf_storeDigits {s : State} (h : s.MEM.wf) {i0 : Word} (hi : i0.toNat ≤ 4093) (v : Byte) :
    (s.storeDigits i0 v).MEM.wf := by
  rw [State.storeDigits_eq]
  exact Memory.wf_write (Memory.wf_write (Memory.wf_write h (by omega) _) (by omega) _) (by omega) _

/-! ### The drawing loop (R130) -/

section Draw
variable (mem : Memory) (i0 : Word) (vx vy : Byte)

/-- A row that clips ends the loop. -/
theorem drawRows_clip (n r : Nat) (fb : Vector Scanline 32) (hit : Bool) (h : i0.toNat + r > 4095 ∨ vy.toNat + r > 31) :
    drawRows mem i0 vx vy n r fb hit = (fb, hit) := by
  cases n with
  | zero => rfl
  | succ n =>
    rw [drawRows]
    by_cases h1 : indexedAddr i0 r > 4095
    · rw [if_pos h1]
    · rw [if_neg h1, dif_neg (by rw [indexedAddr] at h1; omega)]

/-- A row that does not clip is toggled, and the loop goes on. -/
theorem drawRows_draw (n r : Nat) (fb : Vector Scanline 32) (hit : Bool) (h1 : i0.toNat + r ≤ 4095)
    (h2 : vy.toNat + r ≤ 31) :
    drawRows mem i0 vx vy (n + 1) r fb hit = drawRows mem i0 vx vy n (r + 1)
      (fb.set (vy.toNat + r) (fb[vy.toNat + r] ^^^ rowMask (mem.read (i0.toNat + r)) vx))
      (hit || collides fb[vy.toNat + r] (rowMask (mem.read (i0.toNat + r)) vx)) := by
  rw [drawRows, if_neg (by rw [indexedAddr]; omega), dif_pos h2, indexedAddr]

/-- Framebuffer row `q` is toggled by the loop exactly when it is the target of a sprite row that no clip has cut off. -/
theorem drawRows_row (n r : Nat) (fb : Vector Scanline 32) (hit : Bool) (q : Nat) (hq : q < 32) :
    (drawRows mem i0 vx vy n r fb hit).1[q] =
      if vy.toNat + r ≤ q ∧ q < vy.toNat + r + n ∧ i0.toNat + (q - vy.toNat) ≤ 4095
      then fb[q] ^^^ rowMask (mem.read (i0.toNat + (q - vy.toNat))) vx else fb[q] := by
  induction n generalizing r fb hit with
  | zero => simp only [drawRows]; rw [if_neg (by omega)]
  | succ n ih =>
    by_cases hc : i0.toNat + r > 4095 ∨ vy.toNat + r > 31
    · rw [drawRows_clip _ _ _ _ _ _ _ _ hc, if_neg (by omega)]
    · rw [drawRows_draw _ _ _ _ _ _ _ _ (by omega) (by omega), ih, Vector.getElem_set]
      by_cases h : vy.toNat + r = q
      · subst h
        rw [if_neg (by omega), if_pos rfl, if_pos (by omega), show vy.toNat + r - vy.toNat = r by omega]
      · simp only [if_neg h, show (vy.toNat + (r + 1) ≤ q ∧ q < vy.toNat + (r + 1) + n ∧ i0.toNat + (q - vy.toNat) ≤ 4095)
          = (vy.toNat + r ≤ q ∧ q < vy.toNat + r + (n + 1) ∧ i0.toNat + (q - vy.toNat) ≤ 4095) from propext (by omega)]

/-- The loop reports a collision exactly when one was reported before or a toggled row had one. -/
theorem drawRows_hit (n r : Nat) (fb : Vector Scanline 32) (hit : Bool) :
    (drawRows mem i0 vx vy n r fb hit).2 = true ↔ hit = true ∨ ∃ (q : Nat) (hq : q < 32),
      (vy.toNat + r ≤ q ∧ q < vy.toNat + r + n ∧ i0.toNat + (q - vy.toNat) ≤ 4095) ∧
      fb[q] &&& rowMask (mem.read (i0.toNat + (q - vy.toNat))) vx ≠ 0 := by
  induction n generalizing r fb hit with
  | zero => simp only [drawRows]; exact ⟨.inl, fun h => h.elim id fun ⟨q, _, h, _⟩ => by omega⟩
  | succ n ih =>
    by_cases hc : i0.toNat + r > 4095 ∨ vy.toNat + r > 31
    · rw [drawRows_clip _ _ _ _ _ _ _ _ hc]
      exact ⟨.inl, fun h => h.elim id fun ⟨q, _, h, _⟩ => by omega⟩
    · rw [drawRows_draw _ _ _ _ _ _ _ _ (by omega) (by omega), ih]
      simp only [Bool.or_eq_true, collides, bne_iff_ne, Vector.getElem_set]
      have hr : vy.toNat + r - vy.toNat = r := by omega
      constructor
      · rintro ((h | h) | ⟨q, hq, hc, h⟩)
        · exact .inl h
        · exact .inr ⟨vy.toNat + r, by omega, by omega, by rw [hr]; exact h⟩
        · rw [if_neg (by omega)] at h
          exact .inr ⟨q, hq, by omega, h⟩
      · rintro (h | ⟨q, hq, hc, h⟩)
        · exact .inl (.inl h)
        · by_cases he : vy.toNat + r = q
          · subst he
            rw [hr] at h
            exact .inl (.inr h)
          · exact .inr ⟨q, hq, by omega, by rw [if_neg he]; exact h⟩

end Draw

/-! ### Register dump and load (R157, R158) -/

/-- Two offsets of one transfer are different addresses. -/
theorem wrappedAddr_inj {i0 : Word} {i j : Nat} (hi : i < 4096) (hj : j < 4096) (h : wrappedAddr i0 i = wrappedAddr i0 j) :
    i = j := by
  simp only [wrappedAddr] at h; omega

/-- The dump leaves register `i` at offset `i`. -/
theorem dumpRegs_read (x : Vector Byte 16) (i0 : Word) (m : Memory) {k : Nat} (hk : k ≤ 16) {i : Nat} (hi : i < k) :
    (dumpRegs x i0 k m).read (wrappedAddr i0 i) = x[i] := by
  induction k with
  | zero => omega
  | succ k ih =>
    simp only [dumpRegs, Memory.read_write]
    split
    · rename_i h
      obtain rfl := wrappedAddr_inj (by omega) (by omega) h
      simp [Vector.getD, show k < 16 by omega]
    · rename_i h
      have : i ≠ k := fun e => h (by rw [e])
      exact ih (by omega) (by omega)

/-- The dump leaves every other byte alone. -/
theorem dumpRegs_read_other (x : Vector Byte 16) (i0 : Word) (m : Memory) (k a : Nat)
    (h : ∀ i, i < k → wrappedAddr i0 i ≠ a) : (dumpRegs x i0 k m).read a = m.read a := by
  induction k with
  | zero => rfl
  | succ k ih =>
    simp only [dumpRegs, Memory.read_write]
    rw [if_neg (h k (by omega)), ih fun i hi => h i (by omega)]

/-- The load fills register `q` from offset `q`, below `k`, and leaves the others alone. -/
theorem loadRegs_get (m : Memory) (i0 : Word) (k : Nat) (x : Vector Byte 16) (q : Nat) (hq : q < 16) :
    (loadRegs m i0 k x)[q] = if q < k then m.read (wrappedAddr i0 q) else x[q] := by
  induction k with
  | zero => rfl
  | succ k ih =>
    simp only [loadRegs, Vector.getElem_setIfInBounds]
    split
    · rename_i h; subst h; simp
    · rw [ih]
      by_cases hqk : q < k
      · rw [if_pos hqk, if_pos (by omega)]
      · rw [if_neg hqk, if_neg (by omega)]

/-! ### STEP as the host sees it (R185) -/

theorem stepOp_of_next {s t : State} (h : step s = .next t) : stepOp s = (t, .ok) := by simp [stepOp, h]

theorem stepOp_of_fault {s : State} {f : Fault} (h : step s = .fault f) : stepOp s = (f.left, f.result) := by simp [stepOp, h]

/-! ### LOAD (R201, R202) -/

/-- An image that fits is placed from 0x200 on in the reset state. -/
theorem loadOp_of_fits {bytes : List Byte} (h : bytes.length ≤ 3584) :
    loadOp bytes = (State.reset.setMEM (State.reset.MEM.writeList 0x200 bytes), .ok) := by
  unfold loadOp; rw [if_neg (by omega)]

/-- An image that does not fit leaves the reset state. -/
theorem loadOp_of_too_large {bytes : List Byte} (h : 3584 < bytes.length) :
    loadOp bytes = (State.reset, .programTooLarge bytes.length) := by
  unfold loadOp; rw [if_pos (by omega)]

/-! ### DRW and RND as equations

The proofs cite these instead of unfolding `exec`. -/

theorem exec_drw (x y n : Nibble) (s : State) : exec (.drw x y n) s =
    .next (((s.setFlag (flagOf (drawRows s.MEM s.I (s.reg x) (s.reg y) n.toNat 0 s.FB false).2)).setFB
      (drawRows s.MEM s.I (s.reg x) (s.reg y) n.toNat 0 s.FB false).1).setDirty true) := rfl

theorem exec_rndVxNN (x : Nibble) (nn : Byte) (s : State) : exec (.rndVxNN x nn) s =
    .next ((s.setRNG (rngNext s.RNG)).setReg x (rngByte (rngNext s.RNG) &&& nn)) := rfl

end Sys2Proof.Machine
end

