-- ==== Sys2Proof/Laws/PerInstr.lean ====
section
/-! SUPPORT. Statements about every instruction as syntax, one lemma per constructor (LAWS.json: RoundTrip). -/

namespace Sys2Proof.Laws.RoundTrip

/-- The decoder reads a well-formed instruction back from its word. -/
def Statement (i : Instr) : Prop := i.wf = true → decode (encode i) = i

theorem cls (x : Nibble) : Statement (.cls x) := fun _ => by simp [encode, decode, decodeClass0]
theorem ret (x : Nibble) : Statement (.ret x) := fun _ => by simp [encode, decode, decodeClass0]
theorem sys (nnn : Addr12) : Statement (.sys nnn) := by
  intro h
  simp_all [Instr.wf, class0Keys, encode, decode, decodeClass0]
theorem jp (nnn : Addr12) : Statement (.jp nnn) := fun _ => by simp [encode, decode]
theorem jpV0 (nnn : Addr12) : Statement (.jpV0 nnn) := fun _ => by simp [encode, decode]
theorem call (nnn : Addr12) : Statement (.call nnn) := fun _ => by simp [encode, decode]
theorem seVxNN (x : Nibble) (nn : Byte) : Statement (.seVxNN x nn) := fun _ => by simp [encode, decode]
theorem sneVxNN (x : Nibble) (nn : Byte) : Statement (.sneVxNN x nn) := fun _ => by simp [encode, decode]
theorem seVxVy (x y n : Nibble) : Statement (.seVxVy x y n) := fun _ => by simp [encode, decode]
theorem sneVxVy (x y n : Nibble) : Statement (.sneVxVy x y n) := fun _ => by simp [encode, decode]
theorem ldVxNN (x : Nibble) (nn : Byte) : Statement (.ldVxNN x nn) := fun _ => by simp [encode, decode]
theorem addVxNN (x : Nibble) (nn : Byte) : Statement (.addVxNN x nn) := fun _ => by simp [encode, decode]
theorem ldVxVy (x y : Nibble) : Statement (.ldVxVy x y) := fun _ => by simp [encode, decode, decodeClass8]
theorem orVxVy (x y : Nibble) : Statement (.orVxVy x y) := fun _ => by simp [encode, decode, decodeClass8]
theorem andVxVy (x y : Nibble) : Statement (.andVxVy x y) := fun _ => by simp [encode, decode, decodeClass8]
theorem xorVxVy (x y : Nibble) : Statement (.xorVxVy x y) := fun _ => by simp [encode, decode, decodeClass8]
theorem addVxVy (x y : Nibble) : Statement (.addVxVy x y) := fun _ => by simp [encode, decode, decodeClass8]
theorem subVxVy (x y : Nibble) : Statement (.subVxVy x y) := fun _ => by simp [encode, decode, decodeClass8]
theorem subnVxVy (x y : Nibble) : Statement (.subnVxVy x y) := fun _ => by simp [encode, decode, decodeClass8]
theorem shrVxVy (x y : Nibble) : Statement (.shrVxVy x y) := fun _ => by simp [encode, decode, decodeClass8]
theorem shlVxVy (x y : Nibble) : Statement (.shlVxVy x y) := fun _ => by simp [encode, decode, decodeClass8]
theorem ldINNN (nnn : Addr12) : Statement (.ldINNN nnn) := fun _ => by simp [encode, decode]
theorem rndVxNN (x : Nibble) (nn : Byte) : Statement (.rndVxNN x nn) := fun _ => by simp [encode, decode]
theorem drw (x y n : Nibble) : Statement (.drw x y n) := fun _ => by simp [encode, decode]
theorem skp (x : Nibble) : Statement (.skp x) := fun _ => by simp [encode, decode, decodeClassE]
theorem sknp (x : Nibble) : Statement (.sknp x) := fun _ => by simp [encode, decode, decodeClassE]
theorem ldVxDT (x : Nibble) : Statement (.ldVxDT x) := fun _ => by simp [encode, decode, decodeClassF]
theorem ldVxK (x : Nibble) : Statement (.ldVxK x) := fun _ => by simp [encode, decode, decodeClassF]
theorem ldDTVx (x : Nibble) : Statement (.ldDTVx x) := fun _ => by simp [encode, decode, decodeClassF]
theorem ldSTVx (x : Nibble) : Statement (.ldSTVx x) := fun _ => by simp [encode, decode, decodeClassF]
theorem addIVx (x : Nibble) : Statement (.addIVx x) := fun _ => by simp [encode, decode, decodeClassF]
theorem ldFVx (x : Nibble) : Statement (.ldFVx x) := fun _ => by simp [encode, decode, decodeClassF]
theorem ldBVx (x : Nibble) : Statement (.ldBVx x) := fun _ => by simp [encode, decode, decodeClassF]
theorem ldMemVx (x : Nibble) : Statement (.ldMemVx x) := fun _ => by simp [encode, decode, decodeClassF]
theorem ldVxMem (x : Nibble) : Statement (.ldVxMem x) := fun _ => by simp [encode, decode, decodeClassF]
theorem rsv8 (x y n : Nibble) : Statement (.rsv8 x y n) := by
  intro h
  simp_all [Instr.wf, class8Keys, encode, decode, decodeClass8]
theorem rsvE (x : Nibble) (nn : Byte) : Statement (.rsvE x nn) := by
  intro h
  simp_all [Instr.wf, classEKeys, encode, decode, decodeClassE]
theorem rsvF (x : Nibble) (nn : Byte) : Statement (.rsvF x nn) := by
  intro h
  simp_all [Instr.wf, classFKeys, encode, decode, decodeClassF]

end Sys2Proof.Laws.RoundTrip
end

