-- ==== Sys2Proof/Tests/Slice0.lean ====
section
/-! SUPPORT. Tests. Expected results come from the spec's vectors (95_test_vectors.md, whose number is given) and from its opcode
map (R64); each is about one step on a small state. Then, for every statement with hypotheses, a concrete case that meets them. -/

namespace Sys2Proof.Tests

open Sys2Proof Sys2Proof.Machine

/-! ### Well-formedness: one ill-formed term for each check -/

theorem test_wf_refuses_sys : Instr.wf (.sys 0x0E0) = false ∧ Instr.wf (.sys 0x3EE) = false := by decide
theorem test_wf_refuses_rsv8 : Instr.wf (.rsv8 1 2 0x6) = false ∧ Instr.wf (.rsv8 1 2 0xE) = false := by decide
theorem test_wf_refuses_rsvE : Instr.wf (.rsvE 1 0x9E) = false ∧ Instr.wf (.rsvE 1 0xA1) = false := by decide
theorem test_wf_refuses_rsvF : Instr.wf (.rsvF 1 0x0A) = false ∧ Instr.wf (.rsvF 1 0x65) = false := by decide

/-! ### Decoding: words written out bit by bit from the pattern column of R64 -/

theorem test_decode_flow :
    decode 0b0000101011100000 = .cls 0xA ∧ decode 0b0000011111101110 = .ret 0x7 ∧ decode 0b0000000100100011 = .sys 0x123 ∧
    decode 0b0001101010111100 = .jp 0xABC ∧ decode 0b1011001100000000 = .jpV0 0x300 ∧
    decode 0b0010001100000000 = .call 0x300 := by decide
theorem test_decode_skips :
    decode 0b0011101001010101 = .seVxNN 0xA 0x55 ∧ decode 0b0100101001010101 = .sneVxNN 0xA 0x55 ∧
    decode 0b0101000100101111 = .seVxVy 0x1 0x2 0xF ∧ decode 0b1001000100100000 = .sneVxVy 0x1 0x2 0x0 := by decide
theorem test_decode_loads :
    decode 0b0110101001010101 = .ldVxNN 0xA 0x55 ∧ decode 0b0111000111111111 = .addVxNN 0x1 0xFF ∧
    decode 0b1000000100100000 = .ldVxVy 0x1 0x2 := by decide
theorem test_decode_alu :
    decode 0b1000000100100001 = .orVxVy 0x1 0x2 ∧ decode 0b1000000100100010 = .andVxVy 0x1 0x2 ∧
    decode 0b1000000100100011 = .xorVxVy 0x1 0x2 ∧ decode 0b1000000100100100 = .addVxVy 0x1 0x2 ∧
    decode 0b1000000100100101 = .subVxVy 0x1 0x2 ∧ decode 0b1000000100100111 = .subnVxVy 0x1 0x2 ∧
    decode 0b1000000100100110 = .shrVxVy 0x1 0x2 ∧ decode 0b1000000100101110 = .shlVxVy 0x1 0x2 := by decide
theorem test_decode_index_random_draw :
    decode 0b1010111111111111 = .ldINNN 0xFFF ∧ decode 0b1100000000001111 = .rndVxNN 0x0 0x0F ∧
    decode 0b1101000100101010 = .drw 0x1 0x2 0xA := by decide
theorem test_decode_keypad : decode 0b1110001110011110 = .skp 0x3 ∧ decode 0b1110001110100001 = .sknp 0x3 := by decide
theorem test_decode_classF :
    decode 0b1111001100000111 = .ldVxDT 0x3 ∧ decode 0b1111010000001010 = .ldVxK 0x4 ∧
    decode 0b1111000000010101 = .ldDTVx 0x0 ∧ decode 0b1111000100011000 = .ldSTVx 0x1 ∧
    decode 0b1111001000011110 = .addIVx 0x2 ∧ decode 0b1111010100101001 = .ldFVx 0x5 ∧
    decode 0b1111000000110011 = .ldBVx 0x0 ∧ decode 0b1111001101010101 = .ldMemVx 0x3 ∧
    decode 0b1111001101100101 = .ldVxMem 0x3 := by decide
theorem test_decode_reserved :
    decode 0b1000101010111001 = .rsv8 0xA 0xB 0x9 ∧ decode 0b1110000010011111 = .rsvE 0x0 0x9F ∧
    decode 0b1111000101010110 = .rsvF 0x1 0x56 := by decide
theorem test_decode_bytes_big_endian : decodeBytes [0x6A, 0x55, 0x12] = .ok (.ldVxNN 0xA 0x55, [0x12]) := by decide
theorem test_decode_bytes_refuses : decodeBytes [0x6A] = .error .tooFewBytes ∧ decodeBytes [] = .error .tooFewBytes := by decide

/-! ### One step

The start state of the vectors: reset, with `PRNG_SEED = 0`. -/

/-- Reset with the generator at 0. -/
def start : State := State.reset.setRNG 0

/-- `start` with general registers set. -/
def withRegs (l : List (Nibble × Byte)) : State := l.foldl (fun s p => s.setReg p.1 p.2) start

/-- What one STEP with the word `w` at `PC` leaves, read by `f`; nothing if it is an error. -/
def run {α : Type} (s : State) (w : Nat) (f : State → α) : Option α :=
  match step (s.withFetchWord 16 w) with
  | .next t => some (f t)
  | .fault _ | .refused _ => none

/-- What the error of one STEP is, and `f` of the state it leaves. -/
def runFault {α : Type} (s : State) (w : Nat) (f : State → α) : Option (OpResult × α) :=
  match step (s.withFetchWord 16 w) with
  | .fault e => some (e.result, f e.left)
  | .next _ | .refused _ => none

/-- The registers of a flag test: `x[0]`, `x[1]`, `x[15]` and `PC`. -/
def regs01F (s : State) : Byte × Byte × Byte × Word := (s.reg 0, s.reg 1, s.reg 15, s.PC)

/-- F10. -/
theorem test_cls : run ((start.setFB (Vector.replicate 32 5)).setDirty false) 0x00E0
    (fun t => (t.FB[0], t.FB[31], t.DIRTY, t.PC)) = some (5, 5, false, 0x202) := by decide
/-- F7. -/
theorem test_ret : run ((start.setSP 1).setSlot 0 0x456) 0x00EE (fun t => (t.PC, t.SP, t.slot 0)) = some (0x456, 0, 0x456) := by
  decide
/-- F8. -/
theorem test_ret_wraps : run (start.setSlot 15 0xABC) 0x00EE (fun t => (t.PC, t.SP)) = some (0xABC, 15) := by decide
/-- F11. -/
theorem test_sys : runFault start 0x0123 (fun t => (t.PC, t.IR)) = some (.unsupportedOpcode 0x123 0x200, 0x202, 0x123) := by decide
/-- F1. -/
theorem test_jp : run start 0x1ABC (·.PC) = some 0xABC := by decide
/-- F2. -/
theorem test_jpV0 : run (withRegs [(0, 0xFF)]) 0xBFFF (·.PC) = some 0x10FE := by decide
/-- F5. -/
theorem test_call_wraps : run (start.setSP 15) 0x2300 (fun t => (t.PC, t.SP, t.slot 15)) = some (0x300, 0, 0x202) := by decide
/-- F6. -/
theorem test_call_top : run (start.setPC 4094) 0x2300 (fun t => (t.PC, t.SP, t.slot 0)) = some (0x300, 1, 0x1000) := by decide
/-- K1, K2. -/
theorem test_seVxNN : run (withRegs [(0xA, 0x55)]) 0x3A55 (·.PC) = some 0x204 ∧ run (withRegs [(0xA, 0x54)]) 0x3A55 (·.PC) = some 0x202 := by
  decide
/-- K3, K4. -/
theorem test_sneVxNN : run (withRegs [(0xA, 0x54)]) 0x4A55 (·.PC) = some 0x204 ∧ run (withRegs [(0xA, 0x55)]) 0x4A55 (·.PC) = some 0x202 := by
  decide
/-- K7, K6. -/
theorem test_seVxVy : run (withRegs [(1, 7), (2, 7)]) 0x512F (·.PC) = some 0x204 ∧ run (withRegs [(1, 7), (2, 8)]) 0x5120 (·.PC) = some 0x202 := by
  decide
/-- K8, K9. -/
theorem test_sneVxVy : run (withRegs [(1, 7), (2, 8)]) 0x9120 (·.PC) = some 0x204 ∧ run (withRegs [(1, 7), (2, 7)]) 0x9120 (·.PC) = some 0x202 := by
  decide
/-- K11. -/
theorem test_skip_past_memory : run (start.setPC 4094) 0x3000 (·.PC) = some 0x1002 := by decide
/-- K14, K13. -/
theorem test_skp : run ((withRegs [(3, 0x1A)]).setKey 10 true) 0xE39E (·.PC) = some 0x204 ∧
    run (withRegs [(3, 5)]) 0xE39E (·.PC) = some 0x202 := by decide
/-- K15, K16. -/
theorem test_sknp : run (withRegs [(3, 5)]) 0xE3A1 (·.PC) = some 0x204 ∧
    run ((withRegs [(3, 5)]).setKey 5 true) 0xE3A1 (·.PC) = some 0x202 := by decide
/-- A1. -/
theorem test_ldVxNN : run start 0x6A55 (fun t => (t.reg 0xA, t.PC)) = some (0x55, 0x202) := by decide
/-- A3. -/
theorem test_addVxNN_no_flag : run (withRegs [(1, 0xFF)]) 0x7101 regs01F = some (0, 0, 0, 0x202) := by decide
/-- A4. -/
theorem test_ldVxVy : run (withRegs [(2, 0x7E)]) 0x8120 regs01F = some (0, 0x7E, 0, 0x202) := by decide
/-- A5. -/
theorem test_or : run (withRegs [(1, 0xF0), (2, 0x0F), (15, 1)]) 0x8121 regs01F = some (0, 0xFF, 1, 0x202) := by decide
/-- A6. -/
theorem test_and : run (withRegs [(1, 0xF3), (2, 0x3C), (15, 1)]) 0x8122 regs01F = some (0, 0x30, 1, 0x202) := by decide
/-- A7. -/
theorem test_xor : run (withRegs [(1, 0xFF), (2, 0x0F), (15, 1)]) 0x8123 regs01F = some (0, 0xF0, 1, 0x202) := by decide
/-- A9, A10. -/
theorem test_add : run (withRegs [(0, 0xC8), (1, 0x64)]) 0x8014 regs01F = some (0x2C, 0x64, 1, 0x202) ∧
    run (withRegs [(0, 0x80), (1, 0x7F), (15, 1)]) 0x8014 regs01F = some (0xFF, 0x7F, 0, 0x202) := by decide
/-- A11, A13. -/
theorem test_add_flag_operand : run (withRegs [(15, 0xC8), (1, 0x64)]) 0x8F14 regs01F = some (0, 0x64, 1, 0x202) ∧
    run (withRegs [(0, 0xFF), (15, 1)]) 0x80F4 regs01F = some (0, 0, 1, 0x202) := by decide
/-- A15, A16. -/
theorem test_sub : run (withRegs [(0, 0x10), (1, 0x20), (15, 1)]) 0x8015 regs01F = some (0xF0, 0x20, 0, 0x202) ∧
    run (withRegs [(0, 0x33), (1, 0x33)]) 0x8015 regs01F = some (0, 0x33, 1, 0x202) := by decide
/-- A18. -/
theorem test_sub_flag_operand : run (withRegs [(15, 0x10), (1, 0x20)]) 0x8F15 regs01F = some (0, 0x20, 0, 0x202) := by decide
/-- A19, A20. -/
theorem test_subn : run (withRegs [(0, 0x10), (1, 0x20)]) 0x8017 regs01F = some (0x10, 0x20, 1, 0x202) ∧
    run (withRegs [(0, 0x20), (1, 0x10)]) 0x8017 regs01F = some (0xF0, 0x10, 0, 0x202) := by decide
/-- A21. -/
theorem test_shr : run (withRegs [(2, 0xB1), (1, 7)]) 0x8126 regs01F = some (0, 0x58, 1, 0x202) := by decide
/-- A22, A23. -/
theorem test_shr_flag_operand : run (withRegs [(2, 0xB1)]) 0x8F26 regs01F = some (0, 0, 0x58, 0x202) ∧
    run (withRegs [(15, 3)]) 0x81F6 regs01F = some (0, 1, 1, 0x202) := by decide
/-- A25, A27. -/
theorem test_shl : run (withRegs [(2, 0xB1)]) 0x812E regs01F = some (0, 0x62, 1, 0x202) ∧
    run (withRegs [(2, 0x7F), (15, 1)]) 0x812E regs01F = some (0, 0xFE, 0, 0x202) := by decide
/-- A26. -/
theorem test_shl_flag_operand : run (withRegs [(2, 0xB1)]) 0x8F2E regs01F = some (0, 0, 0x62, 0x202) := by decide
/-- X1. -/
theorem test_ldINNN : run start 0xAFFF (fun t => (t.I, t.PC)) = some (0xFFF, 0x202) := by decide
/-- X2. -/
theorem test_rnd : run (start.setRNG 1) 0xC00F (fun t => (t.RNG, t.reg 0)) = some (0x41C67EA6, 1) := by decide
/-- The second line of the sequence from seed 0 (section 3.4), and X4's zero mask. -/
theorem test_rnd_second_and_zero_mask : run (start.setRNG 0x3039) 0xC1FF (fun t => (t.RNG, t.reg 1)) = some (0xD3DC167E, 0xD3) ∧
    run (withRegs [(1, 0x77)]) 0xC100 (fun t => (t.RNG, t.reg 1)) = some (0x3039, 0) := by decide
/-- D3. -/
theorem test_drw_clips_right : run (((withRegs [(0, 60), (1, 31)]).setI 0x300).writeByte 0x300 0xFF) 0xD011
    (fun t => (t.FB[31], t.FB[0], t.reg 15, t.DIRTY)) = some (0xF, 0, 0, true) := by decide
/-- D9. -/
theorem test_drw_collides : run (((start.setI 0x300).writeByte 0x300 0xFF).setFB
    ((Vector.replicate 32 0).set 0 0x0100000000000000)) 0xD011
    (fun t => (t.FB[0], t.reg 15, t.DIRTY)) = some (0xFE00000000000000, 1, true) := by decide
/-- D6: the third row is dropped at the bottom. D10: the column is the old `x[15]`. -/
theorem test_drw_clips_bottom : run (((((withRegs [(1, 30)]).setI 0x300).writeByte 0x300 0x80).writeByte 0x301 0x40).writeByte 0x302
    0x20) 0xD013 (fun t => (t.FB[30], t.FB[31], t.FB[0])) = some (0x8000000000000000, 0x4000000000000000, 0) ∧
    run (((withRegs [(15, 8), (1, 2)]).setI 0x300).writeByte 0x300 0xC0) 0xDF11
    (fun t => (t.FB[2], t.reg 15)) = some (0x00C0000000000000, 0) := by decide
/-- D7: the row whose byte lies outside memory is dropped. -/
theorem test_drw_clips_memory : run (((start.setI 0xFFE).writeByte 0xFFE 0x80).writeByte 0xFFF 0x40) 0xD013
    (fun t => (t.FB[0], t.FB[1], t.FB[2], t.reg 15)) = some (0x8000000000000000, 0x4000000000000000, 0, 0) := by decide
/-- T1. -/
theorem test_ldVxDT : run (start.setDT 0x2A) 0xF307 (fun t => (t.reg 3, t.DT)) = some (0x2A, 0x2A) := by decide
/-- T2. -/
theorem test_ldVxK : run ((withRegs [(4, 0x77)]).setKey 2 true) 0xF40A (fun t => (t.reg 4, t.PC)) = some (0x77, 0x202) := by decide
/-- T3. -/
theorem test_ldDTVx : run (withRegs [(0, 0x3C)]) 0xF015 (fun t => (t.DT, t.ST)) = some (0x3C, 0) := by decide
/-- T4. -/
theorem test_ldSTVx : run (withRegs [(1, 2)]) 0xF118 (fun t => (t.DT, t.ST)) = some (0, 2) := by decide
/-- T6, T7. -/
theorem test_addIVx : run ((withRegs [(2, 1)]).setI 0xFFF) 0xF21E (fun t => (t.I, t.reg 15)) = some (0x1000, 0) ∧
    run ((withRegs [(2, 1)]).setI 0xFFFF) 0xF21E (fun t => (t.I, t.reg 15)) = some (0, 0) := by decide
/-- T10, for every `FONT_BASE`. -/
theorem test_ldFVx : run (withRegs [(5, 0xFF)]) 0xF529 (·.I) = some (BitVec.ofNat 16 (Config.fontBase.val + 1275)) := by rfl
/-- T12. -/
theorem test_ldBVx : run ((withRegs [(0, 0xFF)]).setI 4093) 0xF033
    (fun t => (t.readByte 0xFFD, t.readByte 0xFFE, t.readByte 0xFFF, t.I)) = some (2, 5, 5, 4093) := by decide
/-- T13. -/
theorem test_ldBVx_error : runFault ((withRegs [(0, 0xFF)]).setI 4094) 0xF033
    (fun t => (t.PC, t.IR, t.readByte 0xFFE, t.readByte 0xFFF)) = some (.addressOutOfBounds 4094, 0x202, 0xF033, 0, 0) := by decide
/-- T16. -/
theorem test_ldMemVx : run ((withRegs [(0, 0xAB)]).setI 0x1234) 0xF055
    (fun t => (t.readByte 0x234, t.readByte 0x235, t.I)) = some (0xAB, 0, 0x1234) := by decide
/-- T17, the bytes at addresses 0 and 1 written first, since the font table is a parameter. -/
theorem test_ldVxMem : run (((((start.setI 0xFFE).setMEM
    [(0, 0xF0), (1, 0x90), (0xFFE, 0x11), (0xFFF, 0x22)]))).setReg 4 9) 0xF365
    (fun t => (t.reg 0, t.reg 1, t.reg 2, t.reg 3, t.reg 4, t.I)) = some (0x11, 0x22, 0xF0, 0x90, 9, 0xFFE) := by decide
/-- A28, K17, T18. -/
theorem test_reserved : run (withRegs [(1, 0x11), (2, 0x22), (15, 1)]) 0x8128 regs01F = some (0, 0x11, 1, 0x202) ∧
    run ((withRegs [(3, 5)]).setKey 5 true) 0xE300 (·.PC) = some 0x202 ∧
    run (withRegs [(0, 9)]) 0xF075 regs01F = some (9, 0, 0, 0x202) := by decide

/-! ### Fetch and host operations -/

/-- H1, H2. -/
theorem test_fetch_outside :
    (stepOp (start.setPC 4095)).2 = .addressOutOfBounds 4095 ∧ (stepOp (start.setPC 0x10FE)).2 = .addressOutOfBounds 0x10FE ∧
    (stepOp (start.setPC 4095)).1.PC = 4095 ∧ (stepOp (start.setPC 4095)).1.IR = 0 := by decide
/-- H4. -/
theorem test_odd_address : run (start.setPC 0x201) 0x6A55 (fun t => (t.reg 0xA, t.PC)) = some (0x55, 0x203) := by decide
/-- H5, H7. -/
theorem test_tick : (let p := perform .tick ((start.setDT 3).setST 1); (p.1.DT, p.1.ST, p.2)) = (2, 0, .soundElapsed) ∧
    (let p := perform .tick ((start.setDT 1).setST 2); (p.1.DT, p.1.ST, p.2)) = (0, 1, .none) := by decide
/-- H6. -/
theorem test_tick_at_zero : (let p := perform .tick start; (p.1.DT, p.1.ST, p.2)) = (0, 0, .none) := by decide
/-- H8. -/
theorem test_setKey : (let p := perform (.setKey 7 true) start; (p.1.key 7, p.1.key 6, p.2)) = (true, false, .none) := by decide
/-- H9. -/
theorem test_clearDirty : (let p := perform .clearDirty ((start.setDirty true).setFB ((Vector.replicate 32 0).set 0 0xFF));
    (p.1.DIRTY, p.1.FB[0], p.2)) = (false, 0xFF, .none) := by decide
/-- H12, H13. -/
theorem test_load_then_step : (let p := runSchedule [.load [0x60], .step] start; (p.1.reg 0, p.1.PC, p.2)) = (0, 0x202, [.ok, .ok]) ∧
    (runSchedule [.load [], .step] start).2 = [.ok, .unsupportedOpcode 0x0000 0x200] := by decide
/-- The result codes of R180. -/
theorem test_codes : OpResult.ok.code = some 0 ∧ (OpResult.unsupportedOpcode 0 0).code = some 1 ∧
    (OpResult.addressOutOfBounds 0).code = some 2 ∧ (OpResult.programTooLarge 0).code = some 3 := by decide

/-! ### Cases that meet the hypotheses of the statements

One theorem per statement that has hypotheses, with the boundary of each clause. -/

/-- A state about to execute the word `w`. -/
def ready (s : State) (w : Nat) : State := s.withFetchWord 16 w

/-- A state in which every hypothesis on one instruction's run can be met: the word `w` at 0x200. -/
theorem test_start_invariant : Inv start ∧ Inv (ready start 0x1ABC) :=
  ⟨⟨by decide, by decide, by decide⟩, ⟨by decide, by decide, by decide⟩⟩

theorem test_witness_DecodeOfEncodeIsTheInstruction :
    Instr.wf (.sys 0x0E1) = true ∧ Instr.wf (.rsv8 0xA 0xB 0x9) = true ∧ Instr.wf (.rsvE 0x0 0x9F) = true ∧
    Instr.wf (.rsvF 0x1 0x56) = true ∧ Instr.wf (.drw 0xF 0xF 0xF) = true := by decide
theorem test_witness_EveryWordEncodesExactlyOneInstruction :
    Instr.wf (.jp 0xABC) = true ∧ encode (.jp 0xABC) = 0x1ABC := by decide
theorem test_witness_IgnoredBitsHaveNoEffect :
    ((0x5120 : Word) &&& 0xFFF0 = 0x512F &&& 0xFFF0 ∧ (0x5120 : Word) &&& 0xF000 = 0x5000) ∧
    ((0x9120 : Word) &&& 0xFFF0 = 0x912F &&& 0xFFF0 ∧ (0x9120 : Word) &&& 0xF000 = 0x9000) ∧
    ((0x00E0 : Word) &&& 0xF0FF = 0x0FE0 &&& 0xF0FF ∧ (0x00E0 : Word) &&& 0xF0FF = 0x00E0) ∧
    ((0x00EE : Word) &&& 0xF0FF = 0x0FEE &&& 0xF0FF ∧ (0x00EE : Word) &&& 0xF0FF = 0x00EE) := by decide
theorem test_witness_StepRunsTheDecodedInstruction :
    let s := ready (start.setPC 4094) 0x3000
    s.PC.toNat ≤ 4094 ∧ decodeBytes [s.readByte s.PC.toNat, s.readByte (s.PC.toNat + 1)] = .ok (.seVxNN 0 0, []) := by decide
theorem test_witness_FetchOutsideMemoryChangesNothing : 4094 < (start.setPC 4095).PC.toNat := by decide
theorem test_witness_StepSucceedsExactlyWithoutError :
    (∃ t, step (ready (start.setI 4093) 0xF033) = .next t) ∧ (ready (start.setI 4093) 0xF033).I.toNat ≤ 4093 ∧
    decode (ready (start.setI 4093) 0xF033).fetchWord = .ldBVx 0 := ⟨⟨_, rfl⟩, by decide, by decide⟩
theorem test_witness_EveryErrorIsPrecise :
    (∃ f, step (start.setPC 4095) = .fault f) ∧ (∃ f, step (ready (start.setPC 4094) 0x0000) = .fault f) ∧
    (∃ f, step (ready (start.setI 4094) 0xF033) = .fault f) := ⟨⟨_, rfl⟩, ⟨_, rfl⟩, ⟨_, rfl⟩⟩
theorem test_witness_StepKeepsTheInvariant : Inv (ready start 0x1ABC) ∧ ∃ t, step (ready start 0x1ABC) = .next t :=
  ⟨test_start_invariant.2, ⟨_, rfl⟩⟩
theorem test_witness_EveryScheduleKeepsTheInvariant : Inv start := test_start_invariant.1
/-- CLS meets the premise of every clause. -/
theorem test_witness_ElementsChangeOnlyByTheirInstructions :
    exec (.cls 0) start = .next start ∧ Instr.rowNumber (.cls 0) ∉ [24, 23, 29, 30, 22, 31, 32, 2, 4, 5, 6, 7, 8, 9, 10, 25, 26, 33, 34] :=
  ⟨rfl, by decide⟩
theorem test_witness_RegistersChangeOnlyWhereNamed :
    (∃ t, exec (.ldVxMem 15) (start.setI 0x300 |>.writeByte 0x30F 7) = .next t ∧
      t.reg 15 ≠ (start.setI 0x300 |>.writeByte 0x30F 7).reg 15) ∧
    ∃ t, exec (.addVxVy 0 1) (withRegs [(0, 0xFF), (1, 1)]) = .next t ∧ t.reg 15 ≠ (withRegs [(0, 0xFF), (1, 1)]).reg 15 :=
  ⟨⟨_, rfl, by decide⟩, ⟨_, rfl, by decide⟩⟩
theorem test_witness_ProgramCounterAfterAStep :
    (decode (ready start 0x1FFF).fetchWord = .jp 0xFFF ∧ ∃ t, step (ready start 0x1FFF) = .next t) ∧
    (decode (ready start 0x2FFF).fetchWord = .call 0xFFF ∧ ∃ t, step (ready start 0x2FFF) = .next t) ∧
    (decode (ready start 0xBFFF).fetchWord = .jpV0 0xFFF ∧ ∃ t, step (ready start 0xBFFF) = .next t) ∧
    (decode (ready start 0x0FEE).fetchWord = .ret 0xF ∧ ∃ t, step (ready start 0x0FEE) = .next t) ∧
    (skipCondition (decode (ready (start.setPC 4094) 0x3000).fetchWord) start = some true ∧
      ∃ t, step (ready (start.setPC 4094) 0x3000) = .next t) ∧
    (skipCondition (decode (ready start 0x4000).fetchWord) start = some false ∧ ∃ t, step (ready start 0x4000) = .next t) ∧
    ((decode (ready (start.setPC 4094) 0x6000).fetchWord).rowNumber ∉ [2, 4, 5, 6, 7, 8, 9, 10, 25, 26] ∧
      ∃ t, step (ready (start.setPC 4094) 0x6000) = .next t) :=
  ⟨⟨by decide, ⟨_, rfl⟩⟩, ⟨by decide, ⟨_, rfl⟩⟩, ⟨by decide, ⟨_, rfl⟩⟩, ⟨by decide, ⟨_, rfl⟩⟩, ⟨by decide, ⟨_, rfl⟩⟩,
    ⟨by decide, ⟨_, rfl⟩⟩, ⟨by decide, ⟨_, rfl⟩⟩⟩
theorem test_witness_NoOperationsChangeNothing :
    (0x0FE0 : Word) &&& 0xF0FF = 0x00E0 ∧ (0xFF0A : Word) &&& 0xF0FF = 0xF00A ∧
    ((0x8FFF : Word) &&& 0xF000 = 0x8000 ∧ (0x8FFF : Word) &&& 0x000F ∈ [0x8, 0x9, 0xA, 0xB, 0xC, 0xD, (0xF : Word)]) ∧
    ((0xE09F : Word) &&& 0xF000 = 0xE000 ∧ (0xE09F : Word) &&& 0x00FF ∉ [0x9E, (0xA1 : Word)]) ∧
    ((0xFFFF : Word) &&& 0xF000 = 0xF000 ∧
      (0xFFFF : Word) &&& 0x00FF ∉ [0x07, 0x0A, 0x15, 0x18, 0x1E, 0x29, 0x33, 0x55, (0x65 : Word)]) := by decide
theorem test_witness_LegacyCallIsUnsupported :
    (0x0E1 : Addr12).toNat % 256 ≠ 0xE0 ∧ (0x0E1 : Addr12).toNat % 256 ≠ 0xEE := by decide
theorem test_witness_NestedCallsReturnInReverseOrder :
    16 ≤ (List.replicate 17 ((0x202 : Word), (0x200 : Addr12))).length ∧ 16 ≤ 16 := by decide
theorem test_witness_SkipsOnByteCompare : (withRegs [(1, 0xFF)]).reg 1 = 0xFF ∧ (withRegs [(1, 0xFE)]).reg 1 ≠ 0xFF := by decide
theorem test_witness_SkipsOnRegisterCompare :
    (withRegs [(1, 7), (2, 7)]).reg 1 = (withRegs [(1, 7), (2, 7)]).reg 2 ∧
    (withRegs [(1, 7), (2, 8)]).reg 1 ≠ (withRegs [(1, 7), (2, 8)]).reg 2 := by decide
theorem test_witness_SkipsOnKeyFlag : (start.setKey 15 true).key 15 = true ∧ start.key 15 = false := by decide
theorem test_witness_LogicIsBitwiseWithoutFlag : 7 < 8 := by decide
/-- For AddWritesSumThenCarry, SubWritesDifferenceThenNoBorrow, ReverseSubSwapsTheOperands, ShiftRightTakesTheSecondRegister and
ShiftLeftTakesTheSecondRegister. -/
theorem test_witness_FlagInstructions : (14 : Nibble) ≠ 15 := by decide
theorem test_witness_GeneratorCountsRandomInstructionsOnly :
    HostOp.reset ∉ [HostOp.step, .tick] ∧ (∀ bytes, HostOp.load bytes ∉ [HostOp.step, .tick]) ∧
    rndCount [.step, .tick] (ready start 0xC0FF) = 1 := ⟨by decide, by simp, by decide⟩
theorem test_witness_RowMaskPlacesTheByteAtItsColumn : 63 < 64 := by decide
/-- A first draw that toggles pixels and finds no collision, and the same draw again; `x[0]` is column and row. -/
theorem test_witness_DrawingTwiceRestoresTheScreen :
    let s := (start.setI 0x300).writeByte 0x300 0xFF
    ∃ t u, exec (.drw 0 0 1) s = .next t ∧ exec (.drw 0 0 1) t = .next u ∧ t.reg 0 = s.reg 0 ∧ t.FB ≠ s.FB ∧ t.reg 15 = 0 :=
  ⟨_, _, rfl, rfl, by decide, by decide, by decide⟩
theorem test_witness_DecimalDigitsAreStoredOrNothing :
    (start.setI 4093).I.toNat ≤ 4093 ∧ 4093 < (start.setI 4094).I.toNat := by decide
/-- The last register of the longest dump, and an address outside it. -/
theorem test_witness_RegisterDumpStoresTheRange :
    (15 : Nibble).toNat ≤ (15 : Nibble).toNat ∧ ∀ i : Nibble, i.toNat ≤ (15 : Nibble).toNat → wrappedAddr 0xFF8 i.toNat ≠ 8 := by
  decide
theorem test_witness_RegisterLoadFillsTheRange :
    (14 : Nibble).toNat ≤ (14 : Nibble).toNat ∧ (14 : Nibble).toNat < (15 : Nibble).toNat := by decide
theorem test_witness_DumpThenLoadRestoresRegisters :
    let s := (withRegs [(0, 1), (1, 2)]).setI 0x300
    ∃ t u, exec (.ldMemVx 1) s = .next t ∧ (t.setReg 0 9).I = s.I ∧ (t.setReg 0 9).MEM = t.MEM ∧
      exec (.ldVxMem 1) (t.setReg 0 9) = .next u ∧ (1 : Nibble).toNat ≤ (1 : Nibble).toNat :=
  ⟨_, _, rfl, rfl, rfl, rfl, by decide⟩
theorem test_witness_CanonicalMemoriesReadingAlikeAreEqual :
    Memory.wf [(0x200, 1), (0xFFF, 2)] ∧ ∀ a, a < 4096 → Memory.read [(0x200, 1), (0xFFF, 2)] a =
      Memory.read (Memory.write (Memory.write [] 0xFFF 2) 0x200 1) a := ⟨by decide, fun _ _ => rfl⟩
theorem test_witness_StoredBytesAreFetchedNext :
    let s := (withRegs [(0, 0x6A), (1, 0x55)]).setI 4094
    1 ≤ (1 : Nibble).toNat ∧ s.I.toNat ≤ 4094 ∧ ∃ t, exec (.ldMemVx 1) s = .next t ∧ (t.setPC s.I).PC = s.I ∧
      (t.setPC s.I).MEM = t.MEM := ⟨by decide, by decide, ⟨_, rfl, rfl, rfl⟩⟩
theorem test_witness_SelfJumpIsAFixedPoint :
    let s := ready (start.setPC 4094) 0x1FFE
    s.PC.toNat ≤ 4094 ∧ s.fetchWord = BitVec.ofNat 16 (0x1000 + s.PC.toNat) := by decide
theorem test_witness_PlacedWordRunsNext :
    65535 < 65536 ∧ (start.setPC 4094).PC.toNat ≤ 4094 ∧ 4094 < (start.setPC 4095).PC.toNat ∧
    (0x1FF + 2 ≠ (0x202 : Word).toNat ∧ 0x1FF + 1 ≠ (0x202 : Word).toNat) := by decide
theorem test_witness_TickCountsDownToZero : (start.setST 1).ST.toNat = 1 ∧ (start.setST 2).ST.toNat ≠ 1 ∧ start.ST.toNat ≠ 1 := by
  decide
theorem test_witness_SoundElapsesOnceOnTheNthTick : 1 ≤ (start.setST 1).ST.toNat ∧ 1 ≤ (start.setST 255).ST.toNat := by decide
theorem test_witness_KeyAndDirtyOperationsWriteOneElement : (14 : Nibble) ≠ 15 := by decide
theorem test_witness_ResetGivesTheSpecifiedValues :
    State.reset = (perform .reset start).1 ∧ 31 < 32 ∧ 79 < 80 ∧ Config.fontBase.val + 80 ≤ 0x200 :=
  ⟨rfl, by decide, by decide, by have := Config.fontBase.isLt; omega⟩
theorem test_witness_LoadPlacesTheImageOrNothing :
    (List.replicate 3584 (0xAA : Byte)).length ≤ 3584 ∧ 3584 < (List.replicate 3585 (0xAA : Byte)).length ∧
    0 < ([0x60] : List Byte).length ∧ 0x200 + ([0x60] : List Byte).length ≤ 0x201 :=
  ⟨by rw [List.length_replicate], by rw [List.length_replicate]; omega, by decide, by decide⟩
theorem test_witness_HostStepsOnAfterUnsupportedOpcode :
    let s := ready (start.setPC 4092) 0x00E1
    s.PC.toNat ≤ 4094 ∧ decode s.fetchWord = .sys 0x0E1 ∧ s.PC.toNat + 2 ≤ 4094 := by decide
theorem test_witness_HostStepsOnAfterDigitStoreError :
    let s := ready ((start.setPC 4092).setI 4094) 0xFF33
    s.PC.toNat ≤ 4094 ∧ decode s.fetchWord = .ldBVx 0xF ∧ 4093 < s.I.toNat ∧ s.PC.toNat + 2 ≤ 4094 := by decide
theorem test_witness_HostStepAnswersTheStep :
    (∃ t, step (ready (start.setPC 4094) 0x6000) = .next t) ∧ 4094 < (start.setPC 4095).PC.toNat := ⟨⟨_, rfl⟩, by decide⟩

end Sys2Proof.Tests
end

