-- ==== Sys2Proof/Proofs/StateElements.lean ====
section
/-! PROOFS. The state as a whole (10_state.md): what one execute phase can do to it, said once as `Effect`; from that the frames of
R32, the registers of R13 and the invariant of R30 over a step and over every schedule. Then `PC` after a step (R17), the canonical
form of memory, and the state after RESET (R31). -/

namespace Sys2Proof.Machine

open Sys2Proof

/-! ### Operands as numbers -/

@[simp] theorem zextAddr_toNat (nnn : Addr12) : (zextAddr nnn).toNat = nnn.toNat :=
  BitVec.toNat_setWidth_of_le (by decide)

@[simp] theorem zextByte_toNat (v : Byte) : (zextByte v).toNat = v.toNat :=
  BitVec.toNat_setWidth_of_le (by decide)

/-- The sum of R84 needs no reduction: it is at most 0xFFF + 0xFF. -/
theorem offsetTarget_toNat (nnn : Addr12) (v0 : Byte) : (offsetTarget nnn v0).toNat = nnn.toNat + v0.toNat := by
  have hn := nnn.isLt
  have hv := v0.isLt
  rw [offsetTarget, BitVec.toNat_add, zextAddr_toNat, zextByte_toNat]
  omega

/-- `PC + 2` does not wrap where a fetch is possible, or just after one (R18). -/
theorem toNat_add_two {v : Word} (h : v.toNat ≤ 4096) : (v + 2).toNat = v.toNat + 2 :=
  BitVec.toNat_add_of_lt (by change v.toNat + 2 < 65536; omega)

/-- The low four bits of R140 are the value modulo 16. -/
theorem keyIndex_eq (v : Byte) : keyIndex v = BitVec.ofNat 4 (v.toNat % 16) := by
  apply BitVec.eq_of_toNat_eq
  simp [keyIndex]

/-! ### Which registers an instruction may change -/

/-- The registers that may change: the destinations an instruction names and, for the flag rows, `x[15]` (R13). -/
def MayWriteReg (i : Instr) (r : Nibble) : Prop := namesAsDestination i r ∨ (r = 15 ∧ i.rowNumber ∈ flagRows)

theorem State.eq_of_reg_setReg_ne {s : State} {r q : Nibble} {v : Byte} (h : (s.setReg r v).reg q ≠ s.reg q) : q = r := by
  by_contra hq
  exact h (State.reg_setReg_other s v (Ne.symm hq))

theorem State.eq_or_eq_of_reg_setReg_setReg_ne {s : State} {r p q : Nibble} {v w : Byte}
    (h : ((s.setReg r v).setReg p w).reg q ≠ s.reg q) : q = r ∨ q = p := by
  by_cases hp : q = p
  · exact .inr hp
  · rw [State.reg_setReg_other _ _ (Ne.symm hp)] at h
    exact .inl (State.eq_of_reg_setReg_ne h)

theorem lt_of_loadRegs_ne {m : Memory} {i0 : Word} {k q : Nat} {x : Vector Byte 16} (hq : q < 16)
    (h : (loadRegs m i0 k x)[q] ≠ x[q]) : q < k := by
  by_contra hk
  rw [loadRegs_get, if_neg hk] at h
  exact h rfl

/-! ### What an execute phase can do -/

/-- The ways in which an execute phase that answers a next state changes the state, with the rows of the opcode map (R64) that do
so. One constructor per set of elements written (R32, column "instructions"). -/
inductive Effect (i : Instr) (s : State) : State → Prop where
  | unchanged : Effect i s s
  | regs (x : Vector Byte 16) (hx : ∀ r, (s.setX x).reg r ≠ s.reg r → MayWriteReg i r) : Effect i s (s.setX x)
  | random (g : BitVec 32) (x : Vector Byte 16) (hi : i.rowNumber = 23)
      (hx : ∀ r, (s.setX x).reg r ≠ s.reg r → MayWriteReg i r) : Effect i s ((s.setRNG g).setX x)
  | draw (x : Vector Byte 16) (fb : Vector Scanline 32) (hi : i.rowNumber = 24)
      (hx : ∀ r, (s.setX x).reg r ≠ s.reg r → MayWriteReg i r) : Effect i s (((s.setX x).setFB fb).setDirty true)
  | index (v : Word) (hi : i.rowNumber ∈ [22, 31, 32]) : Effect i s (s.setI v)
  | delay (v : Byte) (hi : i.rowNumber = 29) : Effect i s (s.setDT v)
  | sound (v : Byte) (hi : i.rowNumber = 30) : Effect i s (s.setST v)
  | store (m : Memory) (hi : i.rowNumber ∈ [33, 34]) (hm : s.MEM.wf → m.wf) : Effect i s (s.setMEM m)
  | jump (v : Word) (hi : i.rowNumber ∈ [4, 5]) (hv : v.toNat ≤ 0x10FE) : Effect i s (s.setPC v)
  | skip (c : Bool) (hi : i.rowNumber ∈ [7, 8, 9, 10, 25, 26]) : Effect i s (s.skipIf c)
  | call (v : Word) (hi : i.rowNumber = 6) (hv : v.toNat ≤ 0x10FE) : Effect i s ((s.push s.PC).setPC v)
  | ret (hi : i.rowNumber = 2) : Effect i s ((s.setPC (s.slot (s.SP - 1))).setSP (s.SP - 1))

section
variable {i : Instr} {s t : State}

/-- An instruction that writes its named destination and nothing else. -/
theorem Effect.setReg (r : Nibble) (v : Byte) (hr : namesAsDestination i r) : Effect i s (s.setReg r v) :=
  .regs _ fun _ hq => .inl (State.eq_of_reg_setReg_ne hq ▸ hr)

/-- A flag row writes its named destination and `x[15]`; which comes first depends on the row (R14). -/
theorem Effect.setReg_setReg (r p : Nibble) (v w : Byte) (hr : MayWriteReg i r) (hp : MayWriteReg i p) :
    Effect i s ((s.setReg r v).setReg p w) := by
  refine .regs _ fun q hq => ?_
  rcases State.eq_or_eq_of_reg_setReg_setReg_ne hq with rfl | rfl
  · exact hr
  · exact hp

theorem mayWriteReg_flag (hi : i.rowNumber ∈ flagRows) : MayWriteReg i flagReg := .inr ⟨rfl, hi⟩

/-- Whatever an execute phase answers as a next state is one of the effects. -/
theorem exec_effect (h : exec i s = .next t) : Effect i s t := by
  cases i
  case sys => cases h
  case ldBVx x =>
    obtain ⟨hI, rfl⟩ := exec_ldBVx_next h
    exact .store _ (by simp [Instr.rowNumber]) fun hm => State.wf_storeDigits hm hI _
  all_goals cases h
  case cls | ldVxK | rsv8 | rsvE | rsvF => exact .unchanged
  case ret => exact .ret rfl
  case jp nnn => exact .jump _ (by simp [Instr.rowNumber]) (by rw [zextAddr_toNat]; omega)
  case jpV0 nnn => exact .jump _ (by simp [Instr.rowNumber]) (by rw [offsetTarget_toNat]; omega)
  case call nnn => exact .call _ rfl (by rw [zextAddr_toNat]; omega)
  case seVxNN | sneVxNN | seVxVy | sneVxVy | skp | sknp => exact .skip _ (by simp [Instr.rowNumber])
  case ldVxNN | addVxNN | ldVxVy | orVxVy | andVxVy | xorVxVy | ldVxDT => exact .setReg _ _ rfl
  case addVxVy | subVxVy | subnVxVy =>
    exact .setReg_setReg _ _ _ _ (.inl rfl) (mayWriteReg_flag (by simp [Instr.rowNumber, flagRows]))
  case shrVxVy | shlVxVy =>
    exact .setReg_setReg _ _ _ _ (mayWriteReg_flag (by simp [Instr.rowNumber, flagRows])) (.inl rfl)
  case ldINNN | addIVx | ldFVx => exact .index _ (by simp [Instr.rowNumber])
  case rndVxNN x nn => exact .random _ _ rfl fun r hr => .inl (State.eq_of_reg_setReg_ne hr)
  case drw x y n =>
    exact .draw _ _ rfl fun r hr =>
      State.eq_of_reg_setReg_ne hr ▸ mayWriteReg_flag (by simp [Instr.rowNumber, flagRows])
  case ldDTVx => exact .delay _ rfl
  case ldSTVx => exact .sound _ rfl
  case ldMemVx => exact .store _ (by simp [Instr.rowNumber]) fun hm => wf_dumpRegs hm _ _ _
  case ldVxMem x => exact .regs _ fun r hr => .inl (Nat.le_of_lt_succ (lt_of_loadRegs_ne r.isLt hr))

/-! ### Frames (R32) -/

theorem Effect.KEY_eq (he : Effect i s t) : t.KEY = s.KEY := by
  cases he <;> rfl

theorem Effect.IR_eq (he : Effect i s t) : t.IR = s.IR := by
  cases he <;> rfl

theorem Effect.FB_eq (he : Effect i s t) (hi : i.rowNumber ≠ 24) : t.FB = s.FB := by
  cases he
  case draw hd _ => exact absurd hd hi
  all_goals rfl

theorem Effect.DIRTY_eq (he : Effect i s t) (hi : i.rowNumber ≠ 24) : t.DIRTY = s.DIRTY := by
  cases he
  case draw hd _ => exact absurd hd hi
  all_goals rfl

theorem Effect.RNG_eq (he : Effect i s t) (hi : i.rowNumber ≠ 23) : t.RNG = s.RNG := by
  cases he
  case random hr _ => exact absurd hr hi
  all_goals rfl

theorem Effect.DT_eq (he : Effect i s t) (hi : i.rowNumber ≠ 29) : t.DT = s.DT := by
  cases he
  case delay hd => exact absurd hd hi
  all_goals rfl

theorem Effect.ST_eq (he : Effect i s t) (hi : i.rowNumber ≠ 30) : t.ST = s.ST := by
  cases he
  case sound hs => exact absurd hs hi
  all_goals rfl

theorem Effect.I_eq (he : Effect i s t) (hi : i.rowNumber ∉ [22, 31, 32]) : t.I = s.I := by
  cases he
  case index hx => exact absurd hx hi
  all_goals rfl

theorem Effect.STACK_eq (he : Effect i s t) (hi : i.rowNumber ≠ 6) : t.STACK = s.STACK := by
  cases he
  case call hc _ => exact absurd hc hi
  all_goals rfl

theorem Effect.SP_eq (he : Effect i s t) (hi : i.rowNumber ∉ [2, 6]) : t.SP = s.SP := by
  cases he
  case call hc _ => exact absurd (by simp [hc]) hi
  case ret hr => exact absurd (by simp [hr]) hi
  all_goals rfl

theorem Effect.MEM_eq (he : Effect i s t) (hi : i.rowNumber ∉ [33, 34]) : t.MEM = s.MEM := by
  cases he
  case store hm _ => exact absurd hm hi
  all_goals rfl

/-- The rows that write `PC` in their execute phase: RET, the jumps, CALL and the skips (R17). -/
theorem Effect.PC_eq (he : Effect i s t) (hi : i.rowNumber ∉ [2, 4, 5, 6, 7, 8, 9, 10, 25, 26]) : t.PC = s.PC := by
  cases he
  case jump hj _ => simp_all
  case skip hk => simp_all
  case call hc _ => exact absurd (by simp [hc]) hi
  case ret hr => exact absurd (by simp [hr]) hi
  all_goals rfl

/-- A register that changes is one the instruction may write (R12, R13). -/
theorem Effect.mayWriteReg (he : Effect i s t) {r : Nibble} (hr : t.reg r ≠ s.reg r) : MayWriteReg i r := by
  cases he
  case regs hx => exact hx r hr
  case random hx => exact hx r hr
  case draw hx => exact hx r hr
  all_goals exact absurd rfl hr

/-! ### The invariant of R30 -/

/-- A skip adds at most 2 to a `PC` that does not wrap. -/
theorem State.skipIf_PC_toNat (c : Bool) (h : s.PC.toNat ≤ 4096) :
    (s.skipIf c).PC.toNat = s.PC.toNat + if c then 2 else 0 := by
  cases c
  · rfl
  · exact toNat_add_two h

/-- The execute phase keeps the invariant when `PC` is where a fetch leaves it, at most 4096: that is what CALL pushes, and a skip
adds 2 to it. -/
theorem Effect.inv (he : Effect i s t) (hs : Inv s) (hpc : s.PC.toNat ≤ 4096) : Inv t := by
  obtain ⟨hmem, hPC, hstack⟩ := hs
  cases he
  case store hm => exact ⟨hm hmem, hPC, hstack⟩
  case jump hv => exact ⟨hmem, hv, hstack⟩
  case skip c _ =>
    refine ⟨hmem, ?_, hstack⟩
    rw [State.skipIf_PC_toNat c hpc]
    split <;> omega
  case call v _ hv =>
    refine ⟨hmem, hv, fun k => ?_⟩
    rw [State.setPC_slot, State.push_slot]
    split
    · exact hpc
    · exact hstack k
  case ret => exact ⟨hmem, Nat.le_trans (hstack _) (by decide), hstack⟩
  all_goals exact ⟨hmem, hPC, hstack⟩

theorem State.fetched_PC_toNat (h : s.canFetch) : s.fetched.PC.toNat = s.PC.toNat + 2 :=
  toNat_add_two (by omega)

theorem Inv.fetched (hs : Inv s) (h : s.canFetch) : Inv s.fetched :=
  ⟨hs.mem, by rw [State.fetched_PC_toNat h]; omega, hs.stack⟩

theorem Inv.step (hs : Inv s) (h : step s = .next t) : Inv t := by
  obtain ⟨hf, he⟩ := step_next h
  exact (exec_effect he).inv (hs.fetched hf) (by rw [State.fetched_PC_toNat hf]; omega)

/-- An error leaves the state before the STEP or the one after its fetch phase (R183, R184). -/
theorem step_fault_left {f : Fault} (h : step s = .fault f) : f.left = s ∨ s.canFetch ∧ f.left = s.fetched := by
  by_cases hf : s.canFetch
  · rw [step_of_canFetch hf] at h
    rcases exec_cases (decode s.fetchWord) s.fetched with ⟨u, hu⟩ | ⟨-, hu⟩ | ⟨-, -, hu⟩ <;> rw [hu] at h <;> cases h
    · exact .inr ⟨hf, rfl⟩
    · exact .inr ⟨hf, rfl⟩
  · rw [step_of_not_canFetch hf] at h
    cases h
    exact .inl rfl

theorem Inv.stepOp (hs : Inv s) : Inv (stepOp s).1 := by
  cases h : Machine.step s with
  | next u =>
    rw [stepOp_of_next h]
    exact hs.step h
  | fault f =>
    rw [stepOp_of_fault h]
    rcases step_fault_left h with hl | ⟨hf, hl⟩
    · exact hl ▸ hs
    · exact hl ▸ hs.fetched hf
  | refused r =>
    simp only [Machine.stepOp, h]
    exact hs

end

/-! ### The reset state (R31, R200) -/

@[simp] theorem reset_reg (r : Nibble) : State.reset.reg r = 0 := Vector.getElem_replicate r.isLt

@[simp] theorem reset_slot (k : Nibble) : State.reset.slot k = 0 := Vector.getElem_replicate k.isLt

@[simp] theorem reset_key (k : Nibble) : State.reset.key k = false := Vector.getElem_replicate k.isLt

theorem reset_readByte (a : Nat) : State.reset.readByte a = resetByte a := rfl

theorem reset_readByte_font {j : Nat} (h : j < 80) :
    State.reset.readByte (Config.fontBase.val + j) = Config.font[j] := by
  rw [reset_readByte, resetByte_eq, dif_pos (by omega)]
  simp only [Nat.add_sub_cancel_left]

theorem reset_readByte_of_outside_font {a : Nat} (h : a < Config.fontBase.val ∨ Config.fontBase.val + 80 ≤ a) :
    State.reset.readByte a = 0 := by
  rw [reset_readByte, resetByte_eq, dif_neg (by omega)]

theorem reset_inv : Inv State.reset := ⟨reset_memory_wf, by decide, fun k => by rw [reset_slot]; decide⟩

/-! ### The invariant over a schedule -/

theorem loadOp_inv (bytes : List Byte) : Inv (loadOp bytes).1 := by
  obtain ⟨hmem, hpc, hstack⟩ := reset_inv
  by_cases h : bytes.length ≤ 3584
  · rw [loadOp_of_fits h]
    exact ⟨Memory.wf_writeList hmem (by omega), hpc, hstack⟩
  · rw [loadOp_of_too_large (by omega)]
    exact ⟨hmem, hpc, hstack⟩

theorem Inv.perform {s : State} (hs : Inv s) (o : HostOp) : Inv (perform o s).1 := by
  cases o
  case reset => exact reset_inv
  case load bytes => exact loadOp_inv bytes
  case step => exact hs.stepOp
  all_goals exact ⟨hs.mem, hs.pc, hs.stack⟩

theorem Inv.runSchedule {s : State} (hs : Inv s) (os : List HostOp) : Inv (runSchedule os s).1 := by
  induction os generalizing s with
  | nil => exact hs
  | cons o os ih => exact ih (hs.perform o)

/-! ### Canonical memory (notes/assumptions/3.md) -/

theorem Memory.read_of_mem {m : Memory} (h : m.Pairwise fun c d => c.1 < d.1) {c : Host.Cell} (hc : c ∈ m) :
    m.read c.1 = c.2 := by
  induction m with
  | nil => cases hc
  | cons d m ih =>
    obtain ⟨hd, hm⟩ := List.pairwise_cons.mp h
    rcases List.mem_cons.mp hc with rfl | hc
    · exact if_pos rfl
    · exact (if_neg (Nat.ne_of_lt (hd c hc))).trans (ih hm hc)

theorem Memory.mem_of_read_ne {m : Memory} {a : Nat} (h : m.read a ≠ resetByte a) : (a, m.read a) ∈ m := by
  induction m with
  | nil => exact absurd rfl h
  | cons d m ih =>
    obtain ⟨k, v⟩ := d
    by_cases hk : k = a
    · subst hk
      simp [Memory.read]
    · rw [Memory.read, if_neg hk] at h ⊢
      exact List.mem_cons_of_mem _ (ih h)

/-- A canonical memory lists exactly the cells whose byte is read there and is not the reset content. -/
theorem Memory.wf.mem_iff {m : Memory} (h : m.wf) (c : Host.Cell) :
    c ∈ m ↔ c.1 < 4096 ∧ m.read c.1 = c.2 ∧ c.2 ≠ resetByte c.1 := by
  obtain ⟨hsorted, hcell⟩ := h
  constructor
  · intro hc
    exact ⟨(hcell c hc).1, Memory.read_of_mem hsorted hc, (hcell c hc).2⟩
  · rintro ⟨-, hread, hne⟩
    have hmem := Memory.mem_of_read_ne (hread ▸ hne)
    rwa [hread] at hmem

theorem Memory.wf.ext {m n : Memory} (hm : m.wf) (hn : n.wf) (h : ∀ a, a < 4096 → m.read a = n.read a) : m = n := by
  have : Std.Irrefl fun c d : Host.Cell => c.1 < d.1 := ⟨fun c => Nat.lt_irrefl c.1⟩
  have : Std.Antisymm fun c d : Host.Cell => c.1 < d.1 := ⟨fun _ _ hcd hdc => absurd hdc (Nat.lt_asymm hcd)⟩
  refine hm.1.eq_of_mem_iff hn.1 fun c => ?_
  rw [hm.mem_iff, hn.mem_iff]
  exact and_congr_right fun ha => by rw [h c.1 ha]

/-! ### `PC` after a step (R17) -/

/-- A skip instruction skips by its condition and does nothing else (R90 to R94). -/
theorem exec_of_skipCondition {i : Instr} {s : State} {c : Bool} (h : skipCondition i s = some c) :
    exec i s = .next (s.skipIf c) := by
  cases i
  case seVxNN | seVxVy =>
    cases h
    rfl
  case sneVxNN | sneVxVy =>
    cases h
    rw [decide_not]
    rfl
  case skp | sknp =>
    cases h
    rw [← keyIndex_eq]
    rfl
  all_goals cases h

/-- The fetch phase changes nothing that a skip condition reads. -/
theorem skipCondition_fetched (i : Instr) (s : State) : skipCondition i s.fetched = skipCondition i s := by
  cases i <;> rfl

section
variable {s t : State}

/-- A step whose instruction is known has executed it on the fetched state. -/
theorem exec_of_step_next {i : Instr} (h : step s = .next t) (hi : decode s.fetchWord = i) : exec i s.fetched = .next t :=
  hi ▸ (step_next h).2

theorem PC_of_step_jp_or_call {nnn : Addr12} (h : step s = .next t)
    (hi : decode s.fetchWord = .jp nnn ∨ decode s.fetchWord = .call nnn) : t.PC.toNat = nnn.toNat := by
  rcases hi with hi | hi
  · cases exec_of_step_next h hi
    exact zextAddr_toNat nnn
  · cases exec_of_step_next h hi
    exact zextAddr_toNat nnn

theorem PC_of_step_jpV0 {nnn : Addr12} (h : step s = .next t) (hi : decode s.fetchWord = .jpV0 nnn) :
    t.PC.toNat = nnn.toNat + (s.reg 0).toNat := by
  cases exec_of_step_next h hi
  exact offsetTarget_toNat nnn (s.reg 0)

theorem PC_of_step_ret {k : Nibble} (h : step s = .next t) (hi : decode s.fetchWord = .ret k) :
    t.PC = s.slot (s.SP - 1) := by
  cases exec_of_step_next h hi
  rfl

theorem PC_of_step_skip {c : Bool} (h : step s = .next t) (hc : skipCondition (decode s.fetchWord) s = some c) :
    t.PC.toNat = s.PC.toNat + if c then 4 else 2 := by
  obtain ⟨hf, hx⟩ := step_next h
  rw [← skipCondition_fetched] at hc
  rw [exec_of_skipCondition hc] at hx
  cases hx
  have hpc := State.fetched_PC_toNat hf
  rw [State.skipIf_PC_toNat c (by omega), hpc]
  split <;> omega

theorem PC_of_step_other (h : step s = .next t)
    (hi : (decode s.fetchWord).rowNumber ∉ [2, 4, 5, 6, 7, 8, 9, 10, 25, 26]) : t.PC.toNat = s.PC.toNat + 2 := by
  obtain ⟨hf, hx⟩ := step_next h
  rw [(exec_effect hx).PC_eq hi, State.fetched_PC_toNat hf]

end

/-! ### The statements -/

/-- Settles O11: the fetch keeps the invariant, and every effect of an execute phase does. -/
theorem stepKeepsTheInvariant : Obligations.StepKeepsTheInvariant := fun _ _ hs h => hs.step h

/-- Settles O12, by induction on the schedule. -/
theorem everyScheduleKeepsTheInvariant : Obligations.EveryScheduleKeepsTheInvariant := fun os _ hs => hs.runSchedule os

/-- Settles O13: the frames of the effect that the execute phase has. -/
theorem elementsChangeOnlyByTheirInstructions : Obligations.ElementsChangeOnlyByTheirInstructions := by
  intro i s t h
  have he := exec_effect h
  exact ⟨he.KEY_eq, he.IR_eq, fun hi => ⟨he.FB_eq hi, he.DIRTY_eq hi⟩, he.RNG_eq, he.DT_eq, he.ST_eq, he.I_eq, he.STACK_eq,
    he.SP_eq, he.MEM_eq, he.PC_eq⟩

/-- Settles O14: every effect that writes registers writes those the instruction may write. -/
theorem registersChangeOnlyWhereNamed : Obligations.RegistersChangeOnlyWhereNamed :=
  fun _ _ _ _ h hr => (exec_effect h).mayWriteReg hr

/-- Settles O15, one lemma per row of R17's table. -/
theorem programCounterAfterAStep : Obligations.ProgramCounterAfterAStep := fun _ _ h =>
  ⟨fun _ => PC_of_step_jp_or_call h, fun _ => PC_of_step_jpV0 h, fun _ => PC_of_step_ret h, fun _ => PC_of_step_skip h,
    PC_of_step_other h⟩

/-- Settles O46: a canonical memory is determined by the cells it lists, and these by what is read. -/
theorem canonicalMemoriesReadingAlikeAreEqual : Obligations.CanonicalMemoriesReadingAlikeAreEqual :=
  fun _ _ hm hn h => hm.ext hn h

/-- Settles O54, element by element. -/
theorem resetGivesTheSpecifiedValues : Obligations.ResetGivesTheSpecifiedValues := by
  rintro s t rfl
  exact ⟨rfl, reset_reg, rfl, rfl, rfl, reset_slot, rfl, rfl, reset_key, fun _ hq => Vector.getElem_replicate hq, rfl, rfl, rfl,
    fun _ => reset_readByte_font, fun _ => reset_readByte_of_outside_font⟩

/-- Settles O10. -/
theorem resetMeetsTheInvariant : Obligations.ResetMeetsTheInvariant := reset_inv

end Sys2Proof.Machine
end

