-- ==== Sys2Proof/Proofs/InstructionFetch.lean ====
section
/-! PROOFS. Memory as the source of instructions (20_memory.md): the encoder gives back the word the decoder read (R64, R71), what a
STEP whose fetch lies inside memory runs (R42, R172), and that bytes stored by LD [I], Vx are what the next fetch reads (R53, R212). -/

namespace Sys2Proof

/-! ### The word of a decoded instruction (R61, R64) -/

section
variable {w : Word} {c : Nibble}

theorem wordXYN_of_fields {n : Nibble} (hc : fieldC w = c) (hn : fieldN w = n) :
    wordXYN c (fieldX w) (fieldY w) n = w := by
  rw [← hc, ← hn, wordXYN_fields]

theorem wordXNN_of_fields {nn : Byte} (hc : fieldC w = c) (hnn : fieldNN w = nn) : wordXNN c (fieldX w) nn = w := by
  rw [← hc, ← hnn, wordXNN_fields]

theorem wordNNN_of_fieldC (hc : fieldC w = c) : wordNNN c (fieldNNN w) = w := by
  rw [← hc, wordNNN_fields]

theorem encode_decodeClass0 (hc : fieldC w = 0x0) : encode (decodeClass0 w) = w := by
  unfold decodeClass0
  repeat' split
  case isFalse => exact wordNNN_of_fieldC hc
  all_goals exact wordXNN_of_fields hc ‹_›

theorem encode_decodeClass8 (hc : fieldC w = 0x8) : encode (decodeClass8 w) = w := by
  unfold decodeClass8
  repeat' split
  case isFalse => exact wordXYN_of_fields hc rfl
  all_goals exact wordXYN_of_fields hc ‹_›

theorem encode_decodeClassE (hc : fieldC w = 0xE) : encode (decodeClassE w) = w := by
  unfold decodeClassE
  repeat' split
  case isFalse => exact wordXNN_of_fields hc rfl
  all_goals exact wordXNN_of_fields hc ‹_›

theorem encode_decodeClassF (hc : fieldC w = 0xF) : encode (decodeClassF w) = w := by
  unfold decodeClassF
  repeat' split
  case isFalse => exact wordXNN_of_fields hc rfl
  all_goals exact wordXNN_of_fields hc ‹_›

end

/-- The encoder is a left inverse of the decoder: no bit of a word is lost, ignored bits included (R65). The arm `h_k`
of R63's dispatch is class `k - 1`. -/
@[simp] theorem encode_decode (w : Word) : encode (decode w) = w := by
  unfold decode
  split
  case h_2 h | h_3 h | h_11 h | h_12 h => exact wordNNN_of_fieldC (BitVec.eq_of_toNat_eq h)
  case h_4 h | h_5 h | h_7 h | h_8 h | h_13 h => exact wordXNN_of_fields (BitVec.eq_of_toNat_eq h) rfl
  case h_6 h | h_10 h | h_14 h => exact wordXYN_of_fields (BitVec.eq_of_toNat_eq h) rfl
  case h_1 h => exact encode_decodeClass0 (BitVec.eq_of_toNat_eq h)
  case h_9 h => exact encode_decodeClass8 (BitVec.eq_of_toNat_eq h)
  case h_15 h => exact encode_decodeClassE (BitVec.eq_of_toNat_eq h)
  case h_16 =>
    have hlt := (fieldC w).isLt
    have h : (fieldC w).toNat = 15 := by
      simp only [imp_false] at *
      omega
    exact encode_decodeClassF (BitVec.eq_of_toNat_eq h)

/-! ### The word of two bytes (R42) -/

theorem decodeBytes_pair (hi lo : Byte) : decodeBytes [hi, lo] = .ok (decode (wordOfBytes hi lo), []) := rfl

theorem ofNat_eq_wordOfBytes (hi lo : Byte) : BitVec.ofNat 16 (hi.toNat * 256 + lo.toNat) = wordOfBytes hi lo := by
  rw [← wordOfBytes_toNat, BitVec.ofNat_toNat, BitVec.setWidth_eq]

end Sys2Proof

namespace Sys2Proof.Machine

open Sys2Proof

/-! ### The fetch phase as a frame (R172) -/

theorem State.fetched_changesOnly (s : State) : ChangesOnly [.IR, .PC] s s.fetched := by
  intro e he
  cases e
  case IR | PC => simp at he
  case x | STACK | KEY | MEM => exact fun _ => rfl
  case FB => exact fun _ _ => rfl
  all_goals rfl

/-! ### Fetching what LD [I], Vx stored (R53, R157) -/

/-- Below 4096 the transfer's addresses do not wrap. -/
theorem wrappedAddr_of_lt {i0 : Word} {k : Nat} (h : i0.toNat + k < 4096) : wrappedAddr i0 k = i0.toNat + k :=
  Nat.mod_eq_of_lt h

section
variable {x : Nibble} {s t u : State}

/-- After LD [I], Vx each stored register is read back at its place (R157). -/
theorem readByte_of_exec_ldMemVx (h : exec (.ldMemVx x) s = .next t) {i : Nibble} (hi : i.toNat ≤ x.toNat) :
    t.readByte (wrappedAddr s.I i.toNat) = s.reg i := by
  cases h
  exact dumpRegs_read s.x s.I s.MEM x.isLt (Nat.lt_succ_of_le hi)

/-- The word at the stored range is `x[0]` and `x[1]`, in any state that still has the memory LD [I], Vx left. -/
theorem fetchWord_of_exec_ldMemVx (hx : 1 ≤ x.toNat) (hI : s.I.toNat ≤ 4094) (h : exec (.ldMemVx x) s = .next t)
    (hPC : u.PC = s.I) (hMEM : u.MEM = t.MEM) : u.fetchWord = wordOfBytes (s.reg 0) (s.reg 1) := by
  have hread (a : Nat) : u.readByte a = t.readByte a := congrArg (·.read a) hMEM
  have h0 := readByte_of_exec_ldMemVx h (i := 0) (Nat.zero_le _)
  have h1 := readByte_of_exec_ldMemVx h (i := 1) hx
  rw [wrappedAddr_of_lt (by simp; omega)] at h0 h1
  rw [State.fetchWord, State.readWord, hPC, hread, hread, ← h0, ← h1]
  rfl

end

/-! ### The statements -/

/-- Settles O6: the decoded instruction's word is the fetched one, so the state the fetch leaves is the stated one. -/
theorem stepRunsTheDecodedInstruction : Obligations.StepRunsTheDecodedInstruction := by
  intro s i hPC hdecode
  rw [decodeBytes_pair] at hdecode
  cases hdecode
  rw [encode_decode]
  exact ⟨wordOfBytes_toNat _ _, toNat_add_two (by omega), step_of_canFetch hPC⟩

/-- Settles O47: the fetch reads the word that was stored, and the state after the fetch phase is the witness. -/
theorem storedBytesAreFetchedNext : Obligations.StoredBytesAreFetchedNext := by
  intro x s t u hx hI h hPC hMEM
  have hfetch : u.fetchWord = wordOfBytes (s.reg 0) (s.reg 1) := fetchWord_of_exec_ldMemVx hx hI h hPC hMEM
  have hcan : u.canFetch := (congrArg BitVec.toNat hPC).trans_le hI
  refine ⟨u.fetched, ?_, ?_, rfl, u.fetched_changesOnly⟩
  · rw [step_of_canFetch hcan, hfetch, ofNat_eq_wordOfBytes]
  · rw [State.fetched_IR, hfetch, wordOfBytes_toNat]

end Sys2Proof.Machine
end

