-- ==== Sys2Proof/Proofs/Encoding.lean ====
section
/-! PROOFS. Instruction words (30_encoding.md): the decoder and the encoder are inverse on well-formed instructions (R64, R68), the
dispatch of R63 picks the first row of the opcode map that matches (R64), and the bits a pattern ignores reach no meaning (R65). -/

namespace Sys2Proof

open Sys2Proof.Machine

/-! ### Every decoded instruction is well-formed -/

section
variable (w : Word)

theorem decodeClass0_wf : (decodeClass0 w).wf = true := by
  unfold decodeClass0
  repeat' split
  case isFalse => simp_all [Instr.wf, class0Keys]
  all_goals rfl

theorem decodeClass8_wf : (decodeClass8 w).wf = true := by
  unfold decodeClass8
  repeat' split
  case isFalse => simp_all [Instr.wf, class8Keys]
  all_goals rfl

theorem decodeClassE_wf : (decodeClassE w).wf = true := by
  unfold decodeClassE
  repeat' split
  case isFalse => simp_all [Instr.wf, classEKeys]
  all_goals rfl

theorem decodeClassF_wf : (decodeClassF w).wf = true := by
  unfold decodeClassF
  repeat' split
  case isFalse => simp_all [Instr.wf, classFKeys]
  all_goals rfl

/-- Only the classes with a catch-all row can go wrong. -/
theorem decode_wf : (decode w).wf = true := by
  unfold decode
  split
  case h_1 => exact decodeClass0_wf w
  case h_9 => exact decodeClass8_wf w
  case h_15 => exact decodeClassE_wf w
  case h_16 => exact decodeClassF_wf w
  all_goals rfl

end

/-! ### The decoder reads back what the encoder wrote -/

/-- The round trip of each row (Laws.RoundTrip), as one statement about every instruction. -/
theorem decode_encode : ∀ {i : Instr}, i.wf = true → decode (encode i) = i
  | .cls x => Laws.RoundTrip.cls x
  | .ret x => Laws.RoundTrip.ret x
  | .sys nnn => Laws.RoundTrip.sys nnn
  | .jp nnn => Laws.RoundTrip.jp nnn
  | .jpV0 nnn => Laws.RoundTrip.jpV0 nnn
  | .call nnn => Laws.RoundTrip.call nnn
  | .seVxNN x nn => Laws.RoundTrip.seVxNN x nn
  | .sneVxNN x nn => Laws.RoundTrip.sneVxNN x nn
  | .seVxVy x y n => Laws.RoundTrip.seVxVy x y n
  | .sneVxVy x y n => Laws.RoundTrip.sneVxVy x y n
  | .ldVxNN x nn => Laws.RoundTrip.ldVxNN x nn
  | .addVxNN x nn => Laws.RoundTrip.addVxNN x nn
  | .ldVxVy x y => Laws.RoundTrip.ldVxVy x y
  | .orVxVy x y => Laws.RoundTrip.orVxVy x y
  | .andVxVy x y => Laws.RoundTrip.andVxVy x y
  | .xorVxVy x y => Laws.RoundTrip.xorVxVy x y
  | .addVxVy x y => Laws.RoundTrip.addVxVy x y
  | .subVxVy x y => Laws.RoundTrip.subVxVy x y
  | .subnVxVy x y => Laws.RoundTrip.subnVxVy x y
  | .shrVxVy x y => Laws.RoundTrip.shrVxVy x y
  | .shlVxVy x y => Laws.RoundTrip.shlVxVy x y
  | .ldINNN nnn => Laws.RoundTrip.ldINNN nnn
  | .rndVxNN x nn => Laws.RoundTrip.rndVxNN x nn
  | .drw x y n => Laws.RoundTrip.drw x y n
  | .skp x => Laws.RoundTrip.skp x
  | .sknp x => Laws.RoundTrip.sknp x
  | .ldVxDT x => Laws.RoundTrip.ldVxDT x
  | .ldVxK x => Laws.RoundTrip.ldVxK x
  | .ldDTVx x => Laws.RoundTrip.ldDTVx x
  | .ldSTVx x => Laws.RoundTrip.ldSTVx x
  | .addIVx x => Laws.RoundTrip.addIVx x
  | .ldFVx x => Laws.RoundTrip.ldFVx x
  | .ldBVx x => Laws.RoundTrip.ldBVx x
  | .ldMemVx x => Laws.RoundTrip.ldMemVx x
  | .ldVxMem x => Laws.RoundTrip.ldVxMem x
  | .rsv8 x y n => Laws.RoundTrip.rsv8 x y n
  | .rsvE x nn => Laws.RoundTrip.rsvE x nn
  | .rsvF x nn => Laws.RoundTrip.rsvF x nn

/-! ### Masked words, field by field (R61) -/

section
variable (w m : Word)

@[simp] theorem fieldC_and : fieldC (w &&& m) = fieldC w &&& fieldC m := BitVec.extractLsb'_and
@[simp] theorem fieldX_and : fieldX (w &&& m) = fieldX w &&& fieldX m := BitVec.extractLsb'_and
@[simp] theorem fieldY_and : fieldY (w &&& m) = fieldY w &&& fieldY m := BitVec.extractLsb'_and
@[simp] theorem fieldN_and : fieldN (w &&& m) = fieldN w &&& fieldN m := BitVec.extractLsb'_and
@[simp] theorem fieldNN_and : fieldNN (w &&& m) = fieldNN w &&& fieldNN m := BitVec.extractLsb'_and

end

@[simp] theorem nibble_and_15 (x : Nibble) : x &&& 15#4 = x := BitVec.and_allOnes
@[simp] theorem byte_and_255 (v : Byte) : v &&& 255#8 = v := BitVec.and_allOnes

/-! A literal word has its digits as fields. -/

section
variable (n : Nat)

@[simp] theorem fieldC_ofNat : fieldC (BitVec.ofNat 16 n) = BitVec.ofNat 4 (n / 4096) := by
  apply BitVec.eq_of_toNat_eq; simp [fieldC, Nat.shiftRight_eq_div_pow]; omega
@[simp] theorem fieldX_ofNat : fieldX (BitVec.ofNat 16 n) = BitVec.ofNat 4 (n / 256) := by
  apply BitVec.eq_of_toNat_eq; simp [fieldX, Nat.shiftRight_eq_div_pow]; omega
@[simp] theorem fieldY_ofNat : fieldY (BitVec.ofNat 16 n) = BitVec.ofNat 4 (n / 16) := by
  apply BitVec.eq_of_toNat_eq; simp [fieldY, Nat.shiftRight_eq_div_pow]; omega
@[simp] theorem fieldN_ofNat : fieldN (BitVec.ofNat 16 n) = BitVec.ofNat 4 n := by
  apply BitVec.eq_of_toNat_eq; simp [fieldN]
@[simp] theorem fieldNN_ofNat : fieldNN (BitVec.ofNat 16 n) = BitVec.ofNat 8 n := by
  apply BitVec.eq_of_toNat_eq; simp [fieldNN]

end

section
variable {w v : Word}

theorem eq_iff_fieldsXYN :
    w = v ↔ fieldC w = fieldC v ∧ fieldX w = fieldX v ∧ fieldY w = fieldY v ∧ fieldN w = fieldN v := by
  refine ⟨fun h => by simp [h], fun ⟨hc, hx, hy, hn⟩ => ?_⟩
  rw [← wordXYN_fields w, hc, hx, hy, hn, wordXYN_fields]

theorem eq_iff_fieldsXNN : w = v ↔ fieldC w = fieldC v ∧ fieldX w = fieldX v ∧ fieldNN w = fieldNN v := by
  refine ⟨fun h => by simp [h], fun ⟨hc, hx, hnn⟩ => ?_⟩
  rw [← wordXNN_fields w, hc, hx, hnn, wordXNN_fields]

end

/-! ### The opcode map by classes (R63, R64) -/

/-- The number of the first row of a list that a word matches. -/
def firstRowIn (rows : List OpcodeRow) (w : Word) : Option Nat :=
  (rows.find? fun r => w &&& r.mask == r.pattern).map OpcodeRow.number

/-- The rows of the opcode map whose pattern is of class `c`, in the map's order. -/
def classRows (c : Nibble) : List OpcodeRow := opcodeMap.filter (fieldC ·.pattern == c)

/-- Every row asks for all four bits of the class. -/
theorem fieldC_mask : ∀ r ∈ opcodeMap, fieldC r.mask = 0xF := by decide

section
variable {w : Word} {c : Nibble}

theorem firstRowIn_cons (r : OpcodeRow) (rows : List OpcodeRow) :
    firstRowIn (r :: rows) w = if w &&& r.mask = r.pattern then some r.number else firstRowIn rows w := by
  by_cases h : w &&& r.mask = r.pattern <;> simp [firstRowIn, h]

/-- A word matches rows of its own class only. -/
theorem fieldC_pattern_of_matches {r : OpcodeRow} (hr : r ∈ opcodeMap) (h : w &&& r.mask = r.pattern) :
    fieldC r.pattern = fieldC w := by
  rw [← h, fieldC_and, fieldC_mask r hr]
  exact nibble_and_15 _

/-- The first level of R63: only the rows of the word's class need be tried. -/
theorem firstMatchingRow_of_fieldC (hc : fieldC w = c) : firstMatchingRow w = firstRowIn (classRows c) w := by
  subst hc
  rw [firstRowIn, classRows, List.find?_filter]
  refine congrArg _ (List.find?_congr fun r hr => ?_)
  by_cases h : w &&& r.mask = r.pattern
  · simp [h, fieldC_pattern_of_matches hr h]
  · simp [h]

/-! The second level of R63: within a class with a catch-all row the map's rows are tried on the sub-code the class dispatches on. -/

theorem firstMatchingRow_of_class0 (hc : fieldC w = 0x0) : firstMatchingRow w = some (decodeClass0 w).rowNumber := by
  rw [firstMatchingRow_of_fieldC hc, decodeClass0]
  simp only [apply_ite Instr.rowNumber, apply_ite some]
  simp [classRows, opcodeMap, opcodeRows1to21, opcodeRows22to38, firstRowIn_cons, eq_iff_fieldsXNN, hc, Instr.rowNumber]

theorem firstMatchingRow_of_class8 (hc : fieldC w = 0x8) : firstMatchingRow w = some (decodeClass8 w).rowNumber := by
  rw [firstMatchingRow_of_fieldC hc, decodeClass8]
  simp only [apply_ite Instr.rowNumber, apply_ite some]
  simp [classRows, opcodeMap, opcodeRows1to21, opcodeRows22to38, firstRowIn_cons, eq_iff_fieldsXYN, hc, Instr.rowNumber]

theorem firstMatchingRow_of_classE (hc : fieldC w = 0xE) : firstMatchingRow w = some (decodeClassE w).rowNumber := by
  rw [firstMatchingRow_of_fieldC hc, decodeClassE]
  simp only [apply_ite Instr.rowNumber, apply_ite some]
  simp [classRows, opcodeMap, opcodeRows1to21, opcodeRows22to38, firstRowIn_cons, eq_iff_fieldsXNN, hc, Instr.rowNumber]

theorem firstMatchingRow_of_classF (hc : fieldC w = 0xF) : firstMatchingRow w = some (decodeClassF w).rowNumber := by
  rw [firstMatchingRow_of_fieldC hc, decodeClassF]
  simp only [apply_ite Instr.rowNumber, apply_ite some]
  simp [classRows, opcodeMap, opcodeRows1to21, opcodeRows22to38, firstRowIn_cons, eq_iff_fieldsXNN, hc, Instr.rowNumber]

/-- A class whose one row asks for nothing but the class. -/
theorem firstMatchingRow_of_single {d k : Nat} (h : (fieldC w).toNat = d)
    (hrows : classRows (BitVec.ofNat 4 d) = [⟨k, wordXNN (BitVec.ofNat 4 d) 0 0, 0xF000⟩]) : firstMatchingRow w = some k := by
  have hc : fieldC w = BitVec.ofNat 4 d := by rw [← h, BitVec.ofNat_toNat, BitVec.setWidth_eq]
  rw [firstMatchingRow_of_fieldC hc, hrows, firstRowIn_cons, if_pos]
  simp [eq_iff_fieldsXNN, hc]

end

/-! ### What the words with ignored bits execute (R65) -/

section
variable {w : Word} {s : State}

theorem exec_decode_of_class5 (hc : fieldC w = 0x5) : exec (decode w) s = execSeVxVy (fieldX w) (fieldY w) s := by
  simp [decode, hc, exec]

theorem exec_decode_of_class9 (hc : fieldC w = 0x9) : exec (decode w) s = execSneVxVy (fieldX w) (fieldY w) s := by
  simp [decode, hc, exec]

theorem exec_decode_of_0E0 (h : w &&& 0xF0FF = 0x00E0) : exec (decode w) s = execCls s := by
  obtain ⟨hc, hnn⟩ : fieldC w = 0x0 ∧ fieldNN w = 0xE0 := by simpa [eq_iff_fieldsXNN] using h
  simp [decode, hc, decodeClass0, hnn, exec]

theorem exec_decode_of_0EE (h : w &&& 0xF0FF = 0x00EE) : exec (decode w) s = execRet s := by
  obtain ⟨hc, hnn⟩ : fieldC w = 0x0 ∧ fieldNN w = 0xEE := by simpa [eq_iff_fieldsXNN] using h
  simp [decode, hc, decodeClass0, hnn, exec]

end

/-! ### The statements -/

/-- Settles O1: the round trip of the word, carried over to the two bytes. -/
theorem decodeOfEncodeIsTheInstruction : Obligations.DecodeOfEncodeIsTheInstruction := by
  intro i hi
  have hword : decode (encode i) = i := decode_encode hi
  exact ⟨hword, fun rest => by rw [decodeBytes_encodeBytes, hword]⟩

/-- Settles O2: the decoder's answer is well-formed and encodes to the word, and a second such instruction is decoded from it. -/
theorem everyWordEncodesExactlyOneInstruction : Obligations.EveryWordEncodesExactlyOneInstruction := by
  refine fun w => ⟨decode_wf w, encode_decode w, ?_⟩
  rintro j hj rfl
  exact (decode_encode hj).symm

/-- Settles O3, class by class: the arm `h_k` of R63's dispatch is class `k - 1`, as in `encode_decode`. -/
theorem decoderTakesFirstMatchingRow : Obligations.DecoderTakesFirstMatchingRow := by
  intro w
  unfold decode
  split
  case h_1 h => exact firstMatchingRow_of_class0 (BitVec.eq_of_toNat_eq h)
  case h_9 h => exact firstMatchingRow_of_class8 (BitVec.eq_of_toNat_eq h)
  case h_15 h => exact firstMatchingRow_of_classE (BitVec.eq_of_toNat_eq h)
  case h_16 =>
    have hlt := (fieldC w).isLt
    have h : (fieldC w).toNat = 15 := by
      simp only [imp_false] at *
      omega
    exact firstMatchingRow_of_classF (BitVec.eq_of_toNat_eq h)
  case h_2 h | h_3 h | h_4 h | h_5 h | h_6 h | h_7 h | h_8 h | h_10 h | h_11 h | h_12 h | h_13 h | h_14 h =>
    exact firstMatchingRow_of_single h rfl

/-- Settles O5: what such a word executes reads the fields outside the ignored bits only. -/
theorem ignoredBitsHaveNoEffect : Obligations.IgnoredBitsHaveNoEffect := by
  rintro w v s (⟨h, hclass⟩ | ⟨h, hw | hw⟩)
  · obtain ⟨hc, hx, hy⟩ : fieldC w = fieldC v ∧ fieldX w = fieldX v ∧ fieldY w = fieldY v := by
      simpa [eq_iff_fieldsXYN] using h
    rcases hclass with hw | hw
    · have hw : fieldC w = 0x5 := by simpa [eq_iff_fieldsXYN] using hw
      rw [exec_decode_of_class5 hw, exec_decode_of_class5 (hc ▸ hw), hx, hy]
    · have hw : fieldC w = 0x9 := by simpa [eq_iff_fieldsXYN] using hw
      rw [exec_decode_of_class9 hw, exec_decode_of_class9 (hc ▸ hw), hx, hy]
  · rw [exec_decode_of_0E0 hw, exec_decode_of_0E0 (h ▸ hw)]
  · rw [exec_decode_of_0EE hw, exec_decode_of_0EE (h ▸ hw)]

/-- Settles O4: ten closed words, evaluated. -/
theorem sampleWordsDecodeAsTheSpecPrints : Obligations.SampleWordsDecodeAsTheSpecPrints := by
  unfold Obligations.SampleWordsDecodeAsTheSpecPrints
  decide

end Sys2Proof
end

