-- ==== Sys2Proof/Proofs/Flow.lean ====
section
/-! PROOFS. Class 0, jumps, call and return (40_flow.md), and the no-operations: what RET, SYS, JP, JP V0 and CALL do to a state
(R81 to R85), and why the last sixteen calls return in reverse order (R86). -/

namespace Sys2Proof

/-! ### Words given as numbers (R61, R64) -/

theorem decode_eq_of_encode_eq {i : Instr} {w : Word} (hi : i.wf = true) (hw : encode i = w) : decode w = i :=
  hw ▸ decode_encode hi

/-- A number is decoded as the instruction whose word it is. -/
theorem decode_ofNat {i : Instr} {n : Nat} (hi : i.wf = true) (hn : n = (encode i).toNat) :
    decode (BitVec.ofNat 16 n) = i :=
  decode_eq_of_encode_eq hi (by rw [hn, BitVec.ofNat_toNat, BitVec.setWidth_eq])

theorem sys_wf {nnn : Addr12} (hE0 : nnn.toNat % 256 ≠ 0xE0) (hEE : nnn.toNat % 256 ≠ 0xEE) :
    (Instr.sys nnn).wf = true := by
  simp [Instr.wf, class0Keys, ← BitVec.toNat_inj, hE0, hEE]

/-! ### The words of the no-operations (R66, R151) -/

section
variable {w : Word}

theorem decode_eq_ldVxK (h : w &&& 0xF0FF = 0xF00A) : decode w = .ldVxK (fieldX w) := by
  obtain ⟨hc, hnn⟩ : fieldC w = 0xF ∧ fieldNN w = 0x0A := by simpa [eq_iff_fieldsXNN] using h
  exact decode_eq_of_encode_eq rfl (wordXNN_of_fields hc hnn)

theorem decode_eq_rsv8 (hc : fieldC w = 0x8) (hn : fieldN w ∉ class8Keys) :
    decode w = .rsv8 (fieldX w) (fieldY w) (fieldN w) :=
  decode_eq_of_encode_eq (by simpa [Instr.wf] using hn) (wordXYN_of_fields hc rfl)

theorem decode_eq_rsvE (hc : fieldC w = 0xE) (hnn : fieldNN w ∉ classEKeys) :
    decode w = .rsvE (fieldX w) (fieldNN w) :=
  decode_eq_of_encode_eq (by simpa [Instr.wf] using hnn) (wordXNN_of_fields hc rfl)

theorem decode_eq_rsvF (hc : fieldC w = 0xF) (hnn : fieldNN w ∉ classFKeys) :
    decode w = .rsvF (fieldX w) (fieldNN w) :=
  decode_eq_of_encode_eq (by simpa [Instr.wf] using hnn) (wordXNN_of_fields hc rfl)

theorem fieldC_eq_of_and {c : Nibble} (h : w &&& 0xF000 = wordXNN c 0 0) : fieldC w = c := by
  simpa [eq_iff_fieldsXNN] using h

/-- The sub-codes of class 8 without a row of their own, as R66 lists them. -/
theorem nibble_notMem_class8Keys :
    ∀ n : Nibble, n ∈ [0x8, 0x9, 0xA, 0xB, 0xC, 0xD, 0xF] → n ∉ class8Keys := by decide

theorem fieldN_notMem_class8Keys (h : w &&& 0x000F ∈ [0x8, 0x9, 0xA, 0xB, 0xC, 0xD, 0xF]) :
    fieldN w ∉ class8Keys :=
  nibble_notMem_class8Keys _ (by simpa [eq_iff_fieldsXYN] using h)

theorem fieldNN_notMem_classEKeys (h : w &&& 0x00FF ∉ [0x9E, 0xA1]) : fieldNN w ∉ classEKeys := by
  simpa [classEKeys, eq_iff_fieldsXNN] using h

theorem fieldNN_notMem_classFKeys (h : w &&& 0x00FF ∉ [0x07, 0x0A, 0x15, 0x18, 0x1E, 0x29, 0x33, 0x55, 0x65]) :
    fieldNN w ∉ classFKeys := by
  simpa [classFKeys, eq_iff_fieldsXNN] using h

end

end Sys2Proof

namespace Sys2Proof.Machine

/-! ### Frames of the updates that flow uses (R10) -/

section
variable {s t u : State} {es fs : List Element}

theorem Element.Same.trans {e : Element} (hst : e.Same s t) (htu : e.Same t u) : e.Same s u := by
  cases e
  case x | STACK | KEY | MEM => exact fun k => (htu k).trans (hst k)
  case FB => exact fun q hq => (htu q hq).trans (hst q hq)
  all_goals exact Eq.trans htu hst

theorem ChangesOnly.trans (hst : ChangesOnly es s t) (htu : ChangesOnly fs t u) : ChangesOnly (es ++ fs) s u := by
  intro e he
  rw [List.mem_append, not_or] at he
  exact (hst e he.1).trans (htu e he.2)

theorem ChangesOnly.mono (h : ChangesOnly es s t) (hsub : es ⊆ fs) : ChangesOnly fs s t :=
  fun e he => h e fun hmem => he (hsub hmem)

theorem State.setPC_changesOnly (s : State) (v : Word) : ChangesOnly [.PC] s (s.setPC v) := by
  intro e he
  cases e
  case PC => simp at he
  case x | STACK | KEY | MEM => exact fun _ => rfl
  case FB => exact fun _ _ => rfl
  all_goals rfl

theorem State.setSP_changesOnly (s : State) (v : Nibble) : ChangesOnly [.SP] s (s.setSP v) := by
  intro e he
  cases e
  case SP => simp at he
  case x | STACK | KEY | MEM => exact fun _ => rfl
  case FB => exact fun _ _ => rfl
  all_goals rfl

theorem State.setSlot_changesOnly (s : State) (k : Nibble) (v : Word) : ChangesOnly [.STACK] s (s.setSlot k v) := by
  intro e he
  cases e
  case STACK => simp at he
  case x | KEY | MEM => exact fun _ => rfl
  case FB => exact fun _ _ => rfl
  all_goals rfl

theorem State.push_changesOnly (s : State) (v : Word) : ChangesOnly [.STACK, .SP] s (s.push v) :=
  (s.setSlot_changesOnly s.SP v).trans (State.setSP_changesOnly _ _)

end

/-! ### Call and return as functions of the state (R81, R85) -/

section
variable (s : State)

/-- The state after CALL NNN, `c` being the return address it pushes and NNN. -/
def State.called (c : Word × Addr12) : State := ((s.setPC c.1).push c.1).setPC (zextAddr c.2)

/-- The state after RET. -/
def State.returned : State := (s.setPC (s.slot (s.SP - 1))).setSP (s.SP - 1)

theorem exec_call (nnn : Addr12) : exec (.call nnn) s = .next (s.called (s.PC, nnn)) := rfl

theorem exec_ret (k : Nibble) : exec (.ret k) s = .next s.returned := rfl

@[simp] theorem State.called_SP (c : Word × Addr12) : (s.called c).SP = s.SP + 1 := rfl

theorem State.called_slot (c : Word × Addr12) (k : Nibble) :
    (s.called c).slot k = if s.SP = k then c.1 else s.slot k := State.push_slot _ _ _

@[simp] theorem State.returned_PC : s.returned.PC = s.slot (s.SP - 1) := rfl

@[simp] theorem State.returned_SP : s.returned.SP = s.SP - 1 := rfl

@[simp] theorem State.returned_slot (k : Nibble) : s.returned.slot k = s.slot k := rfl

theorem State.called_changesOnly (nnn : Addr12) : ChangesOnly [.PC, .SP, .STACK] s (s.called (s.PC, nnn)) :=
  ((s.push_changesOnly s.PC).trans (State.setPC_changesOnly _ _)).mono (by decide)

theorem State.returned_changesOnly : ChangesOnly [.PC, .SP] s s.returned :=
  (s.setPC_changesOnly _).trans (State.setSP_changesOnly _ _)

end

/-! ### Runs of calls and returns (R86) -/

section
variable (s : State)

/-- The `n` slots below `SP`, the nearest first: where the next `n` returns go. -/
def State.topSlots (n : Nat) : List Word := (List.range n).map fun j => s.slot (s.SP - 1 - BitVec.ofNat 4 j)

theorem callsFrom_eq (cs : List (Word × Addr12)) : callsFrom cs s = .next (cs.foldl State.called s) := by
  induction cs generalizing s with
  | nil => rfl
  | cons c cs ih => exact ih (s.called c)

theorem foldl_called_SP (cs : List (Word × Addr12)) :
    (cs.foldl State.called s).SP = s.SP + BitVec.ofNat 4 cs.length := by
  induction cs generalizing s with
  | nil => simp
  | cons c cs ih =>
    rw [List.foldl_cons, ih, State.called_SP, List.length_cons, Nat.add_comm, BitVec.ofNat_add, ← BitVec.add_assoc]
    rfl

theorem iterate_returned_SP (n : Nat) : (State.returned^[n] s).SP = s.SP - BitVec.ofNat 4 n := by
  induction n generalizing s with
  | zero => simp
  | succ n ih =>
    rw [Function.iterate_succ_apply, ih, State.returned_SP, Nat.add_comm, BitVec.ofNat_add, sub_sub]
    rfl

/-- A return goes to the nearest slot and leaves the others for the next ones. -/
theorem State.topSlots_succ (n : Nat) : s.topSlots (n + 1) = s.slot (s.SP - 1) :: s.returned.topSlots n := by
  simp [State.topSlots, List.range_succ_eq_map, BitVec.ofNat_add, ← sub_sub, sub_right_comm]

theorem returnsFrom_eq (n : Nat) : returnsFrom n s = some (s.topSlots n, State.returned^[n] s) := by
  induction n generalizing s with
  | zero => rfl
  | succ n ih =>
    rw [returnsFrom, exec_ret]
    simp only [ih, Option.map_some, State.returned_PC, State.topSlots_succ, Function.iterate_succ_apply]

/-- Counting down from `SP`, the slot `SP` itself comes again only at the sixteenth place. -/
theorem ne_sub_one_sub (k : Nibble) {j : Nat} (hj : j < 15) : k ≠ k - 1 - BitVec.ofNat 4 j := by
  intro h
  have htoNat := congrArg BitVec.toNat h
  simp at htoNat
  omega

/-- A call puts its return address before the slots that were nearest, as long as it does not overwrite the last of them. -/
theorem State.called_topSlots (c : Word × Addr12) {n : Nat} (hn : n < 16) :
    (s.called c).topSlots (n + 1) = c.1 :: s.topSlots n := by
  have hSP : (s.called c).returned.SP = s.SP := BitVec.add_sub_cancel _ _
  rw [State.topSlots_succ, State.called_SP, BitVec.add_sub_cancel, State.called_slot, if_pos rfl]
  refine congrArg (c.1 :: ·) (List.map_congr_left fun j hj => ?_)
  have hj : j < n := List.mem_range.mp hj
  rw [hSP, State.returned_slot, State.called_slot, if_neg (ne_sub_one_sub _ (by omega))]

/-- After calls the nearest slots hold the last return addresses, the last first. -/
theorem foldl_called_topSlots (cs : List (Word × Addr12)) {n : Nat} (hlen : n ≤ cs.length) (hn : n ≤ 16) :
    (cs.foldl State.called s).topSlots n = ((cs.map Prod.fst).reverse).take n := by
  induction cs using List.reverseRecOn generalizing n with
  | nil => simp_all [State.topSlots]
  | append_singleton cs c ih =>
    cases n with
    | zero => rfl
    | succ n =>
      have hlen : n ≤ cs.length := by simpa using hlen
      rw [List.foldl_concat, State.called_topSlots _ _ (by omega), ih hlen (by omega)]
      simp

end

/-! ### The statements -/

/-- Settles O16: each listed word decodes to a no-operation. -/
theorem noOperationsChangeNothing : Obligations.NoOperationsChangeNothing := by
  refine ⟨fun _ _ _ _ _ => ⟨rfl, rfl, rfl, rfl, rfl⟩, ?_⟩
  rintro w s (hcls | hldVxK | ⟨hc, hn⟩ | ⟨hc, hnn⟩ | ⟨hc, hnn⟩)
  · exact exec_decode_of_0E0 hcls
  · rw [decode_eq_ldVxK hldVxK]
    rfl
  · rw [decode_eq_rsv8 (fieldC_eq_of_and hc) (fieldN_notMem_class8Keys hn)]
    rfl
  · rw [decode_eq_rsvE (fieldC_eq_of_and hc) (fieldNN_notMem_classEKeys hnn)]
    rfl
  · rw [decode_eq_rsvF (fieldC_eq_of_and hc) (fieldNN_notMem_classFKeys hnn)]
    rfl

/-- Settles O22: the returns go to the nearest slots, and there the calls left their addresses in reverse order. -/
theorem nestedCallsReturnInReverseOrder : Obligations.NestedCallsReturnInReverseOrder := by
  intro cs s n hlen hn
  refine ⟨cs.foldl State.called s, State.returned^[n] (cs.foldl State.called s), callsFrom_eq s cs, ?_, ?_, ?_⟩
  · simp [foldl_called_SP]
  · rw [returnsFrom_eq, foldl_called_topSlots s cs hlen hn]
  · simp only [iterate_returned_SP, foldl_called_SP, BitVec.toNat_sub, BitVec.toNat_add, BitVec.toNat_ofNat]
    omega

/-- Settles O17: the popped slot is `SP - 1`. -/
theorem returnPopsTheStack : Obligations.ReturnPopsTheStack := by
  intro k
  refine ⟨decode_ofNat rfl ?_, fun s => ⟨s.returned, exec_ret s k, s.SP - 1, ?_, rfl, rfl, s.returned_changesOnly⟩⟩
  · simp [encode, wordXNN_toNat, Nat.add_comm]
  · simp [BitVec.toNat_sub, Nat.add_comm]

/-- Settles O18. -/
theorem legacyCallIsUnsupported : Obligations.LegacyCallIsUnsupported := by
  refine fun nnn => ⟨fun hE0 hEE => decode_ofNat (sys_wf hE0 hEE) ?_, fun s => rfl⟩
  simp [encode, wordNNN_toNat]

/-- Settles O19. -/
theorem jumpGoesToItsAddress : Obligations.JumpGoesToItsAddress := by
  refine fun nnn => ⟨decode_ofNat rfl ?_, fun s => ⟨_, rfl, zextAddr_toNat nnn, s.setPC_changesOnly _⟩⟩
  simp [encode, wordNNN_toNat]

/-- Settles O20. -/
theorem offsetJumpAddsRegisterZero : Obligations.OffsetJumpAddsRegisterZero := by
  refine fun nnn => ⟨decode_ofNat rfl ?_, fun s => ⟨_, rfl, offsetTarget_toNat nnn _, s.setPC_changesOnly _⟩⟩
  simp [encode, wordNNN_toNat]

/-- Settles O21: `PC` is pushed at `SP`, and the jump leaves the stack alone. -/
theorem callPushesAndJumps : Obligations.CallPushesAndJumps := by
  intro nnn
  refine ⟨decode_ofNat rfl ?_, fun s => ⟨s.called (s.PC, nnn), exec_call s nnn, zextAddr_toNat nnn, ?_, ?_, ?_,
    s.called_changesOnly nnn⟩⟩
  · simp [encode, wordNNN_toNat]
  · simp
  · rw [State.called_slot, if_pos rfl]
  · exact fun k hk => by rw [State.called_slot, if_neg (Ne.symm hk)]

end Sys2Proof.Machine
end

