-- ==== Sys2Proof/Proofs/Skips.lean ====
section
/-! PROOFS. The skips on registers (41_skips.md): what a skip instruction does, said once for a condition and its opposite. -/

namespace Sys2Proof.Machine

open Sys2Proof

/-! ### Both outcomes of a skip (R94) -/

theorem State.skipIf_changesOnly (s : State) (c : Bool) : ChangesOnly [.PC] s (s.skipIf c) := s.setPC_changesOnly _

/-- `p` is the condition under which the skip is taken, `q` the one under which it is not. -/
theorem exec_skip_outcomes {i : Instr} {s : State} {c : Bool} {p q : Prop} (h : skipCondition i s = some c)
    (hp : p → c = true) (hq : q → c = false) :
    ∃ t, exec i s = .next t ∧ ChangesOnly [.PC] s t ∧ (p → t.PC = s.PC + 2) ∧ (q → t.PC = s.PC) := by
  refine ⟨_, exec_of_skipCondition h, s.skipIf_changesOnly c, fun taken => ?_, fun notTaken => ?_⟩
  · simp [hp taken]
  · simp [hq notTaken]

/-! ### The statements -/

/-- Settles O23. -/
theorem skipsOnByteCompare : Obligations.SkipsOnByteCompare := by
  intro x nn
  refine ⟨decode_ofNat rfl ?_, decode_ofNat rfl ?_, fun s => ⟨?_, ?_⟩⟩
  · simp [encode, wordXNN_toNat]
  · simp [encode, wordXNN_toNat]
  · exact exec_skip_outcomes rfl decide_eq_true decide_eq_false
  · exact exec_skip_outcomes rfl decide_eq_true fun heq => decide_eq_false (not_not_intro heq)

/-- Settles O24: the word carries the low nibble into the instruction, and no skip condition reads it. -/
theorem skipsOnRegisterCompare : Obligations.SkipsOnRegisterCompare := by
  intro x y n
  refine ⟨decode_ofNat rfl ?_, decode_ofNat rfl ?_, fun s => ⟨?_, ?_⟩⟩
  · simp [encode, wordXYN_toNat]
  · simp [encode, wordXYN_toNat]
  · exact exec_skip_outcomes rfl decide_eq_true decide_eq_false
  · exact exec_skip_outcomes rfl decide_eq_true fun heq => decide_eq_false (not_not_intro heq)

end Sys2Proof.Machine
end

