-- ==== Sys2Proof/Proofs/Alu.lean ====
section
/-! PROOFS. Register loads and the ALU (42_alu.md): what one register write leaves unchanged, the two orders in which a flag row
writes its result and `x[15]` (R14), and the values written as numbers. -/

namespace Sys2Proof.Machine

open Sys2Proof

/-! ### The words of class 8 (R61, R64) -/

theorem decode_class8_ofNat {i : Instr} {x y n : Nibble} {k : Nat} (hi : i.wf = true) (he : encode i = wordXYN 0x8 x y n)
    (hk : k = 0x8000 + n.toNat) : decode (BitVec.ofNat 16 (k + x.toNat * 256 + y.toNat * 16)) = i := by
  refine decode_ofNat hi ?_
  rw [he, hk, wordXYN_toNat, show (0x8 : Nibble).toNat = 8 from rfl]
  omega

/-! ### Frames of register writes (R10, R12) -/

section
variable {s t u : State} {rs : List Nibble}

theorem RegsChangeOnly.trans (hst : RegsChangeOnly rs s t) (htu : RegsChangeOnly rs t u) : RegsChangeOnly rs s u :=
  fun r hr => (htu r hr).trans (hst r hr)

theorem State.setReg_regsChangeOnly (s : State) {r : Nibble} (v : Byte) (hr : r ∈ rs) : RegsChangeOnly rs s (s.setReg r v) :=
  fun _ hq => s.reg_setReg_other v (ne_of_mem_of_not_mem hr hq)

theorem State.setReg_setReg_regsChangeOnly (s : State) {r q : Nibble} (v w : Byte) (hr : r ∈ rs) (hq : q ∈ rs) :
    RegsChangeOnly rs s ((s.setReg r v).setReg q w) :=
  (s.setReg_regsChangeOnly v hr).trans (State.setReg_regsChangeOnly _ w hq)

theorem State.setReg_changesOnly (s : State) (r : Nibble) (v : Byte) : ChangesOnly [.x] s (s.setReg r v) := by
  intro e he
  cases e
  case x => simp at he
  case STACK | KEY | MEM => exact fun _ => rfl
  case FB => exact fun _ _ => rfl
  all_goals rfl

theorem State.setReg_setReg_changesOnly (s : State) (r q : Nibble) (v w : Byte) :
    ChangesOnly [.x] s ((s.setReg r v).setReg q w) :=
  ((s.setReg_changesOnly r v).trans (State.setReg_changesOnly _ q w)).mono (by decide)

end

/-! ### What an instruction of this class does to the registers (R14) -/

section
variable {i : Instr} {s : State} {x : Nibble} {v f : Byte}

theorem exec_result_only (h : exec i s = .next (s.setReg x v)) :
    ∃ t, exec i s = .next t ∧ t.reg x = v ∧ RegsChangeOnly [x] s t ∧ ChangesOnly [.x] s t :=
  ⟨_, h, s.reg_setReg_same x v, s.setReg_regsChangeOnly v (by simp), s.setReg_changesOnly x v⟩

/-- The flag is written last: with X = 15 it is what remains (D7). -/
theorem exec_result_then_flag (h : exec i s = .next ((s.setReg x v).setFlag f)) :
    ∃ t, exec i s = .next t ∧ (x ≠ 15 → t.reg x = v) ∧ t.reg 15 = f ∧ RegsChangeOnly [x, 15] s t ∧ ChangesOnly [.x] s t := by
  refine ⟨_, h, fun hx => ?_, State.reg_setFlag_same _ f, s.setReg_setReg_regsChangeOnly v f (by simp) (by simp),
    s.setReg_setReg_changesOnly x 15 v f⟩
  rw [State.reg_setFlag_other _ f hx, State.reg_setReg_same]

/-- The result is written last: with X = 15 it is what remains (D7). -/
theorem exec_flag_then_result (h : exec i s = .next ((s.setFlag f).setReg x v)) :
    ∃ t, exec i s = .next t ∧ t.reg x = v ∧ (x ≠ 15 → t.reg 15 = f) ∧ RegsChangeOnly [x, 15] s t ∧ ChangesOnly [.x] s t := by
  refine ⟨_, h, State.reg_setReg_same _ x v, fun hx => ?_, s.setReg_setReg_regsChangeOnly f v (by simp) (by simp),
    s.setReg_setReg_changesOnly 15 x f v⟩
  rw [State.reg_setReg_other _ v hx, State.reg_setFlag_same]

end

/-! ### Results and flags as numbers (R106 to R110) -/

section
variable (a b v : Byte)

theorem flagOf_decide (p : Prop) [Decidable p] : flagOf (decide p) = if p then 1 else 0 := by
  simp only [flagOf, decide_eq_true_eq]

theorem carryFlag_eq : carryFlag a b = if a.toNat + b.toNat > 255 then 1 else 0 := flagOf_decide _

theorem noBorrowFlag_eq : noBorrowFlag a b = if a.toNat ≥ b.toNat then 1 else 0 := flagOf_decide _

theorem lowBitFlag_toNat : (lowBitFlag v).toNat = v.toNat % 2 := by
  simp [lowBitFlag]

theorem highBitFlag_toNat : (highBitFlag v).toNat = v.toNat / 128 := by
  simp [highBitFlag, Nat.shiftRight_eq_div_pow]

theorem byte_sub_toNat : (a - b).toNat = (a.toNat + 256 - b.toNat) % 256 := by
  rw [BitVec.toNat_sub]
  omega

end

/-! ### The statements -/

/-- Settles O27, with the bits of the result given by the library's lemma for each operator. -/
theorem logicIsBitwiseWithoutFlag : Obligations.LogicIsBitwiseWithoutFlag := by
  intro x y
  refine ⟨decode_class8_ofNat rfl rfl rfl, decode_class8_ofNat rfl rfl rfl, decode_class8_ofNat rfl rfl rfl,
    fun s => ⟨?or, ?and, ?xor⟩⟩
  case or =>
    obtain ⟨t, ht, hx, hregs, helems⟩ := exec_result_only (s := s) (i := .orVxVy x y) rfl
    exact ⟨t, ht, hregs, helems, fun k _ => hx ▸ BitVec.getLsbD_or⟩
  case and =>
    obtain ⟨t, ht, hx, hregs, helems⟩ := exec_result_only (s := s) (i := .andVxVy x y) rfl
    exact ⟨t, ht, hregs, helems, fun k _ => hx ▸ BitVec.getLsbD_and⟩
  case xor =>
    obtain ⟨t, ht, hx, hregs, helems⟩ := exec_result_only (s := s) (i := .xorVxVy x y) rfl
    exact ⟨t, ht, hregs, helems, fun k _ => hx ▸ BitVec.getLsbD_xor⟩

/-- Settles O28: the carry is written after the sum. -/
theorem addWritesSumThenCarry : Obligations.AddWritesSumThenCarry := by
  refine fun x y => ⟨decode_class8_ofNat rfl rfl rfl, fun s => ?_⟩
  obtain ⟨t, ht, hx, hflag, hframe⟩ := exec_result_then_flag (s := s) (i := .addVxVy x y) rfl
  exact ⟨t, ht, fun hne => by rw [hx hne, BitVec.toNat_add], by rw [hflag, carryFlag_eq], hframe⟩

/-- Settles O29: the no-borrow flag is written after the difference. -/
theorem subWritesDifferenceThenNoBorrow : Obligations.SubWritesDifferenceThenNoBorrow := by
  refine fun x y => ⟨decode_class8_ofNat rfl rfl rfl, fun s => ?_⟩
  obtain ⟨t, ht, hx, hflag, hframe⟩ := exec_result_then_flag (s := s) (i := .subVxVy x y) rfl
  exact ⟨t, ht, fun hne => by rw [hx hne, byte_sub_toNat], by rw [hflag, noBorrowFlag_eq], hframe⟩

/-- Settles O30: the operands are exchanged in the difference and in the flag. -/
theorem reverseSubSwapsTheOperands : Obligations.ReverseSubSwapsTheOperands := by
  refine fun x y => ⟨decode_class8_ofNat rfl rfl rfl, fun s => ?_⟩
  obtain ⟨t, ht, hx, hflag, hframe⟩ := exec_result_then_flag (s := s) (i := .subnVxVy x y) rfl
  exact ⟨t, ht, fun hne => by rw [hx hne, byte_sub_toNat], by rw [hflag, noBorrowFlag_eq], hframe⟩

/-- Settles O31: the half is written after bit 0. -/
theorem shiftRightTakesTheSecondRegister : Obligations.ShiftRightTakesTheSecondRegister := by
  refine fun x y => ⟨decode_class8_ofNat rfl rfl rfl, fun s => ?_⟩
  obtain ⟨t, ht, hx, hflag, hframe⟩ := exec_flag_then_result (s := s) (i := .shrVxVy x y) rfl
  exact ⟨t, ht, by simp [hx, Nat.shiftRight_eq_div_pow], fun hne => by rw [hflag hne, lowBitFlag_toNat], hframe⟩

/-- Settles O32: the double is written after bit 7. -/
theorem shiftLeftTakesTheSecondRegister : Obligations.ShiftLeftTakesTheSecondRegister := by
  refine fun x y => ⟨decode_class8_ofNat rfl rfl rfl, fun s => ?_⟩
  obtain ⟨t, ht, hx, hflag, hframe⟩ := exec_flag_then_result (s := s) (i := .shlVxVy x y) rfl
  exact ⟨t, ht, by simp [hx, Nat.shiftLeft_eq], fun hne => by rw [hflag hne, highBitFlag_toNat], hframe⟩

/-- Settles O26. -/
theorem loadsAndByteAddWriteOneRegister : Obligations.LoadsAndByteAddWriteOneRegister := by
  refine ⟨fun x nn => ⟨decode_ofNat rfl ?_, decode_ofNat rfl ?_, fun s => ⟨exec_result_only rfl, ?_⟩⟩,
    fun x y => ⟨decode_class8_ofNat rfl rfl rfl, fun s => exec_result_only rfl⟩⟩
  · simp [encode, wordXNN_toNat]
  · simp [encode, wordXNN_toNat]
  · obtain ⟨t, ht, hx, hframe⟩ := exec_result_only (s := s) (i := .addVxNN x nn) rfl
    exact ⟨t, ht, by rw [hx, BitVec.toNat_add], hframe⟩

end Sys2Proof.Machine
end

