-- ==== Sys2Proof/Proofs/IndexRandom.lean ====
section
/-! PROOFS. Index load and the generator (43_index_random.md): one generator step as numbers (R122), what RND changes (R121), and
how far one host operation moves `RNG`, from which the count over a schedule follows by induction (R123). -/

namespace Sys2Proof.Machine

open Sys2Proof

/-! ### The generator step as numbers (R122) -/

theorem rngNext_toNat (r : BitVec 32) : (rngNext r).toNat = (r.toNat * 1103515245 + 12345) % 2 ^ 32 := by
  rw [rngNext, BitVec.toNat_add, BitVec.toNat_mul, Nat.add_mod_mod, Nat.add_comm, Nat.mul_comm]
  rfl

theorem rngByte_eq (r : BitVec 32) : rngByte r = BitVec.ofNat 8 (r.toNat / 2 ^ 24) := by
  rw [rngByte, BitVec.extractLsb', Nat.shiftRight_eq_div_pow]

/-! ### Frames of the two updates (R10) -/

theorem State.setI_changesOnly (s : State) (v : Word) : ChangesOnly [.I] s (s.setI v) := by
  intro e he
  cases e
  case I => simp at he
  case x | STACK | KEY | MEM => exact fun _ => rfl
  case FB => exact fun _ _ => rfl
  all_goals rfl

theorem State.setRNG_changesOnly (s : State) (g : BitVec 32) : ChangesOnly [.RNG] s (s.setRNG g) := by
  intro e he
  cases e
  case RNG => simp at he
  case x | STACK | KEY | MEM => exact fun _ => rfl
  case FB => exact fun _ _ => rfl
  all_goals rfl

/-! ### How far one STEP moves the generator (R121, R122) -/

section
variable {s : State}

@[simp] theorem State.fetched_RNG (s : State) : s.fetched.RNG = s.RNG := rfl

/-- Row 23 of the opcode map is RND. -/
theorem eq_rndVxNN_of_rowNumber {i : Instr} (hi : i.rowNumber = 23) : ∃ x nn, i = .rndVxNN x nn := by
  cases i
  case rndVxNN x nn => exact ⟨x, nn, rfl⟩
  all_goals cases hi

theorem stepOp_RNG_of_rnd (hf : s.canFetch) (hi : (decode s.fetchWord).rowNumber = 23) :
    (stepOp s).1.RNG = rngNext s.RNG := by
  obtain ⟨x, nn, hrnd⟩ := eq_rndVxNN_of_rowNumber hi
  have hstep := step_of_canFetch hf
  rw [hrnd, exec_rndVxNN] at hstep
  rw [stepOp_of_next hstep, State.setReg_RNG, State.setRNG_RNG, State.fetched_RNG]

/-- A STEP that executes no RND leaves the generator alone, one that ends in an error included. -/
theorem stepOp_RNG_of_no_rnd (h : ¬ (s.canFetch ∧ (decode s.fetchWord).rowNumber = 23)) :
    (stepOp s).1.RNG = s.RNG := by
  cases hstep : step s with
  | next t =>
    obtain ⟨hf, hexec⟩ := step_next hstep
    rw [stepOp_of_next hstep]
    exact (exec_effect hexec).RNG_eq fun hi => h ⟨hf, hi⟩
  | fault f =>
    rw [stepOp_of_fault hstep]
    rcases step_fault_left hstep with hl | ⟨-, hl⟩
    · rw [hl]
    · rw [hl, State.fetched_RNG]
  | refused r => simp only [stepOp, hstep]

end

/-! ### The count over a schedule (R121 d, R123) -/

section
variable (o : HostOp) (os : List HostOp) (s : State)

/-- The count of a schedule is that of its first operation and that of the rest. -/
theorem rndCount_cons : rndCount (o :: os) s = rndCount [o] s + rndCount os (perform o s).1 := rfl

theorem rndCount_step :
    rndCount [.step] s = if s.canFetch ∧ (decode s.fetchWord).rowNumber = 23 then 1 else 0 := by
  simp [rndCount]

theorem rndCount_of_ne_step (ho : o ≠ .step) : rndCount [o] s = 0 := by
  simp [rndCount, ho]

/-- Every operation but RESET and LOAD moves the generator by the RNDs it executes. -/
theorem perform_RNG (hreset : o ≠ .reset) (hload : ∀ bytes, o ≠ .load bytes) :
    (perform o s).1.RNG = rngNext^[rndCount [o] s] s.RNG := by
  cases o
  case reset => exact absurd rfl hreset
  case load bytes => exact absurd rfl (hload bytes)
  case step =>
    rw [rndCount_step]
    split
    case isTrue h =>
      obtain ⟨hf, hi⟩ := h
      exact stepOp_RNG_of_rnd hf hi
    case isFalse h => exact stepOp_RNG_of_no_rnd h
  all_goals
    rw [rndCount_of_ne_step _ _ (by simp)]
    rfl

theorem runSchedule_RNG (hreset : .reset ∉ os) (hload : ∀ bytes, .load bytes ∉ os) :
    (runSchedule os s).1.RNG = rngNext^[rndCount os s] s.RNG := by
  induction os generalizing s with
  | nil => rfl
  | cons o os ih =>
    simp only [List.mem_cons, not_or, forall_and] at hreset hload
    obtain ⟨hreset, hresets⟩ := hreset
    obtain ⟨hload, hloads⟩ := hload
    calc (runSchedule os (perform o s).1).1.RNG
      _ = rngNext^[rndCount os (perform o s).1] (perform o s).1.RNG := ih _ hresets hloads
      _ = rngNext^[rndCount os (perform o s).1] (rngNext^[rndCount [o] s] s.RNG) := by
        rw [perform_RNG o s (Ne.symm hreset) fun bytes => Ne.symm (hload bytes)]
      _ = rngNext^[rndCount (o :: os) s] s.RNG := by
        rw [← Function.iterate_add_apply, rndCount_cons o os s, Nat.add_comm]

end

/-! ### The statements -/

/-- Settles O34: the generator is written first, so the register gets the top byte of its new state. -/
theorem randomAdvancesAndMasksTheTopByte : Obligations.RandomAdvancesAndMasksTheTopByte := by
  refine fun x nn => ⟨decode_ofNat rfl ?_, fun s => ⟨_, exec_rndVxNN x nn s, rngNext_toNat s.RNG, ?_,
    State.setReg_regsChangeOnly (s.setRNG _) _ (by simp), ?_⟩⟩
  · simp [encode, wordXNN_toNat]
  · rw [State.reg_setReg_same, State.setReg_RNG, State.setRNG_RNG, rngByte_eq]
  · exact ((s.setRNG_changesOnly _).trans (State.setReg_changesOnly _ x _)).mono (by decide)

/-- Settles O35, by induction on the schedule. -/
theorem generatorCountsRandomInstructionsOnly : Obligations.GeneratorCountsRandomInstructionsOnly := runSchedule_RNG

/-- Settles O33. -/
theorem indexLoadSetsTheIndex : Obligations.IndexLoadSetsTheIndex := by
  refine fun nnn => ⟨decode_ofNat rfl ?_, fun s => ⟨_, rfl, zextAddr_toNat nnn, s.setI_changesOnly _⟩⟩
  simp [encode, wordNNN_toNat]

end Sys2Proof.Machine
end

