-- ==== Sys2Proof/Proofs/Draw.lean ====
section
/-! PROOFS. DRW (44_draw.md): a draw as the XOR of every framebuffer row with one mask, zero where a clip cuts the sprite row off
(R130). What the flag tells and what a second draw does follow from that. Then the column a sprite bit lands on (R131). -/

namespace Sys2Proof.Machine

open Sys2Proof

/-! ### Identities of the XOR of a row with a mask -/

section
variable {w : Nat} (row mask : BitVec w)

theorem and_not_xor_eq_and : row &&& ~~~(row ^^^ mask) = row &&& mask := by
  ext k hk
  simp only [BitVec.getElem_and, BitVec.getElem_not, BitVec.getElem_xor]
  cases row[k] <;> simp

theorem xor_and_of_disjoint (h : row &&& mask = 0) : (row ^^^ mask) &&& mask = mask := by
  have hdist : (row ^^^ mask) &&& mask = (row &&& mask) ^^^ mask := by
    ext k hk
    simp only [BitVec.getElem_and, BitVec.getElem_xor]
    cases mask[k] <;> simp
  rw [hdist, h]
  exact BitVec.zero_xor

end

/-! ### Frames of the updates (R10) -/

theorem State.setFB_changesOnly (s : State) (fb : Vector Scanline 32) : ChangesOnly [.FB] s (s.setFB fb) := by
  intro e he
  cases e
  case FB => simp at he
  case x | STACK | KEY | MEM => exact fun _ => rfl
  all_goals rfl

theorem State.setDirty_changesOnly (s : State) (p : Bool) : ChangesOnly [.DIRTY] s (s.setDirty p) := by
  intro e he
  cases e
  case DIRTY => simp at he
  case x | STACK | KEY | MEM => exact fun _ => rfl
  case FB => exact fun _ _ => rfl
  all_goals rfl

/-! ### The flag as a truth value (R13) -/

theorem flagOf_eq_zero_or_one (p : Bool) : flagOf p = 0 ∨ flagOf p = 1 := by
  cases p
  · exact .inl rfl
  · exact .inr rfl

theorem flagOf_eq_one_iff (p : Bool) : flagOf p = 1 ↔ p = true := by
  cases p <;> decide

/-! ### What a draw toggles (R130) -/

/-- Framebuffer row `q` is the target of a sprite row that neither memory's end nor the screen's bottom cuts off (D9). -/
abbrev State.DrawsRow (s : State) (y n : Nibble) (q : Nat) : Prop :=
  (s.reg y).toNat ≤ q ∧ q < (s.reg y).toNat + n.toNat ∧ s.I.toNat + (q - (s.reg y).toNat) ≤ 4095

/-- The pixels of framebuffer row `q` that a draw toggles. -/
def State.toggleMask (s : State) (x y n : Nibble) (q : Nat) : Scanline :=
  if s.DrawsRow y n q then rowMask (s.readByte (s.I.toNat + (q - (s.reg y).toNat))) (s.reg x) else 0

section
variable {x y n : Nibble} {s t : State}

theorem State.xor_toggleMask (row : Scanline) (q : Nat) : row ^^^ s.toggleMask x y n q =
    if s.DrawsRow y n q then row ^^^ rowMask (s.readByte (s.I.toNat + (q - (s.reg y).toNat))) (s.reg x) else row := by
  rw [State.toggleMask]
  split
  · rfl
  · exact BitVec.xor_zero

theorem State.and_toggleMask_ne_zero (row : Scanline) (q : Nat) : row &&& s.toggleMask x y n q ≠ 0 ↔
    s.DrawsRow y n q ∧ row &&& rowMask (s.readByte (s.I.toNat + (q - (s.reg y).toNat))) (s.reg x) ≠ 0 := by
  rw [State.toggleMask]
  split
  case isTrue hdraw => exact (and_iff_right hdraw).symm
  case isFalse hclip => simp [hclip]

/-- The mask is made of the coordinates, `I` and memory, so a draw that changes none of them toggles the same pixels again. -/
theorem State.toggleMask_congr (hx : t.reg x = s.reg x) (hy : t.reg y = s.reg y) (hI : t.I = s.I) (hM : t.MEM = s.MEM) (q : Nat) :
    t.toggleMask x y n q = s.toggleMask x y n q := by
  simp only [State.toggleMask, State.DrawsRow, State.readByte, hx, hy, hI, hM]

/-! ### The draw as a XOR of every row with its mask -/

theorem exec_drw_rows (h : exec (.drw x y n) s = .next t) (q : Nat) (hq : q < 32) :
    t.FB[q] = s.FB[q] ^^^ s.toggleMask x y n q := by
  rw [exec_drw] at h
  cases h
  rw [State.xor_toggleMask]
  exact drawRows_row _ _ _ _ _ _ _ _ q hq

theorem exec_drw_reg_flag (h : exec (.drw x y n) s = .next t) :
    t.reg 15 = flagOf (drawRows s.MEM s.I (s.reg x) (s.reg y) n.toNat 0 s.FB false).2 := by
  rw [exec_drw] at h
  cases h
  exact State.reg_setFlag_same s _

/-- The flag tells whether a mask met a lit pixel. -/
theorem exec_drw_flag_iff (h : exec (.drw x y n) s = .next t) :
    t.reg 15 = 1 ↔ ∃ (q : Nat) (hq : q < 32), s.FB[q] &&& s.toggleMask x y n q ≠ 0 := by
  simp only [exec_drw_reg_flag h, flagOf_eq_one_iff, State.and_toggleMask_ne_zero, drawRows_hit, Bool.false_eq_true, false_or]
  rfl

theorem exec_drw_frame (h : exec (.drw x y n) s = .next t) :
    RegsChangeOnly [15] s t ∧ ChangesOnly [.x, .FB, .DIRTY] s t := by
  rw [exec_drw] at h
  cases h
  exact ⟨s.setReg_regsChangeOnly _ (by simp),
    (((s.setReg_changesOnly flagReg _).trans (State.setFB_changesOnly _ _)).trans
      (State.setDirty_changesOnly _ true)).mono (by decide)⟩

/-! ### A second draw at the same place (R130 k) -/

theorem exec_drw_toggleMask (h : exec (.drw x y n) s = .next t) (hx : t.reg x = s.reg x) (hy : t.reg y = s.reg y) (q : Nat) :
    t.toggleMask x y n q = s.toggleMask x y n q := by
  rw [exec_drw] at h
  cases h
  exact State.toggleMask_congr hx hy rfl rfl q

/-- A draw that reports no collision has only toggled pixels that were off. -/
theorem exec_drw_disjoint (h : exec (.drw x y n) s = .next t) (hflag : t.reg 15 = 0) (q : Nat) (hq : q < 32) :
    s.FB[q] &&& s.toggleMask x y n q = 0 := by
  by_contra hlit
  exact absurd (hflag.symm.trans ((exec_drw_flag_iff h).mpr ⟨q, hq, hlit⟩)) (by decide)

/-- A draw that changes the framebuffer has toggled a pixel. -/
theorem exec_drw_exists_toggle (h : exec (.drw x y n) s = .next t) (hne : t.FB ≠ s.FB) :
    ∃ q < 32, s.toggleMask x y n q ≠ 0 := by
  by_contra! hzero
  refine hne (Vector.ext fun q hq => ?_)
  rw [exec_drw_rows h q hq, hzero q hq]
  exact BitVec.xor_zero

end

/-! ### The statements -/

/-- Settles O36. -/
theorem drawTogglesUnclippedRows : Obligations.DrawTogglesUnclippedRows := by
  refine fun x y n => ⟨decode_ofNat rfl ?_, fun s => ?_⟩
  · simp [encode, wordXYN_toNat]
  · have h := exec_drw x y n s
    refine ⟨_, h, fun q hq => ?rows, ?bit, ?flag, rfl, exec_drw_frame h⟩
    case rows => rw [exec_drw_rows h q hq, State.xor_toggleMask]
    case bit =>
      rw [exec_drw_reg_flag h]
      exact flagOf_eq_zero_or_one _
    case flag => simp only [exec_drw_flag_iff h, exec_drw_rows h, and_not_xor_eq_and]

/-- Settles O37: column `c` is bit `63 - c` of the mask, and that bit was bit `vx + 7 - c` of the byte before the two shifts. -/
theorem rowMaskPlacesTheByteAtItsColumn : Obligations.RowMaskPlacesTheByteAtItsColumn := by
  intro b vx c hc
  have hindex : vx.toNat + (63 - c) - 56 = vx.toNat + 7 - c := by omega
  have hleft : vx.toNat + (63 - c) < 64 ↔ vx.toNat ≤ c := by omega
  have hright : vx.toNat + (63 - c) < 56 ↔ ¬ c ≤ vx.toNat + 7 := by omega
  rw [rowMask, BitVec.getLsbD_ushiftRight, BitVec.getLsbD_shiftLeft, BitVec.getLsbD_setWidth, hindex]
  simp only [hleft, hright, decide_not, Bool.not_not]
  by_cases hcol : vx.toNat ≤ c
  · have hbit : vx.toNat + 7 - c < 64 := by omega
    simp [hcol, hbit]
  · simp [hcol]

/-- Settles O38: a XOR with one mask twice gives the row back; after a draw without collision every toggled pixel is lit. -/
theorem drawingTwiceRestoresTheScreen : Obligations.DrawingTwiceRestoresTheScreen := by
  intro x y n s t u hst htu hx hy
  have hmask := exec_drw_toggleMask hst hx hy
  refine ⟨Vector.ext fun q hq => ?_, fun hne hflag => ?_⟩
  · rw [exec_drw_rows htu q hq, exec_drw_rows hst q hq, hmask, BitVec.xor_assoc, BitVec.xor_self, BitVec.xor_zero]
  · obtain ⟨q, hq, htoggle⟩ := exec_drw_exists_toggle hst hne
    have hlit : t.FB[q] &&& t.toggleMask x y n q = s.toggleMask x y n q := by
      rw [hmask, exec_drw_rows hst q hq, xor_and_of_disjoint _ _ (exec_drw_disjoint hst hflag q hq)]
    exact (exec_drw_flag_iff htu).mpr ⟨q, hq, hlit ▸ htoggle⟩

end Sys2Proof.Machine
end

