-- ==== Sys2Proof/Proofs/Keypad.lean ====
section
/-! PROOFS. The skips on the key flags (45_keypad.md): the rule for the skips on registers, with a key flag as the condition. -/

namespace Sys2Proof.Machine

open Sys2Proof

/-! ### The statement -/

/-- Settles O25: the key is the one that the condition of both skips reads, and the skip rule gives both outcomes. -/
theorem skipsOnKeyFlag : Obligations.SkipsOnKeyFlag := by
  intro x
  refine ⟨decode_ofNat rfl ?_, decode_ofNat rfl ?_, fun s => ⟨BitVec.ofNat 4 ((s.reg x).toNat % 16), ?_, ?_, ?_⟩⟩
  · simp [encode, wordXNN_toNat, Nat.add_right_comm]
  · simp [encode, wordXNN_toNat, Nat.add_right_comm]
  · simp
  · exact exec_skip_outcomes rfl id id
  · exact exec_skip_outcomes rfl (fun up => by rw [up, Bool.not_false]) fun down => by rw [down, Bool.not_true]

end Sys2Proof.Machine
end

