-- ==== Sys2Proof/Proofs/TimerIndexMemory.lean ====
section
/-! PROOFS. Class F but the key wait (46_timer_index_memory.md): what the updates of timers, index, registers and memory leave
unchanged, the values of the index arithmetic and of the decimal digits as numbers, and the two register transfers read back. -/

namespace Sys2Proof.Machine

open Sys2Proof

/-! ### The words of class F (R61, R64) -/

theorem decode_classF_ofNat {i : Instr} {x : Nibble} {nn : Byte} {k : Nat} (hi : i.wf = true)
    (he : encode i = wordXNN 0xF x nn) (hk : k = 0xF000 + nn.toNat) : decode (BitVec.ofNat 16 (k + x.toNat * 256)) = i := by
  refine decode_ofNat hi ?_
  rw [he, hk, wordXNN_toNat, show (0xF : Nibble).toNat = 15 from rfl]
  omega

/-! ### Frames of the updates (R10) -/

section
variable (s : State)

theorem State.setDT_changesOnly (v : Byte) : ChangesOnly [.DT] s (s.setDT v) := by
  intro e he
  cases e
  case DT => simp at he
  all_goals simp [Element.Same]

theorem State.setST_changesOnly (v : Byte) : ChangesOnly [.ST] s (s.setST v) := by
  intro e he
  cases e
  case ST => simp at he
  all_goals simp [Element.Same]

theorem State.setX_changesOnly (x : Vector Byte 16) : ChangesOnly [.x] s (s.setX x) := by
  intro e he
  cases e
  case x => simp at he
  all_goals simp [Element.Same]

theorem State.setMEM_changesOnly (m : Memory) : ChangesOnly [.MEM] s (s.setMEM m) := by
  intro e he
  cases e
  case MEM => simp at he
  all_goals simp [Element.Same]

end

/-! ### Values as numbers (R155, R156) -/

section
variable (v : Byte)

/-- The sum of R155 needs no reduction: it is at most 0x1B0 + 5 * 255. -/
theorem glyphAddr_toNat : (glyphAddr v).toNat = Config.fontBase.val + 5 * v.toNat := by
  have hbase := Config.fontBase.isLt
  exact Nat.mod_eq_of_lt (by omega)

theorem hundredsDigit_toNat : (hundredsDigit v).toNat = v.toNat / 100 :=
  Nat.mod_eq_of_lt (by omega)

theorem tensDigit_toNat : (tensDigit v).toNat = v.toNat / 10 % 10 :=
  Nat.mod_eq_of_lt (by omega)

theorem onesDigit_toNat : (onesDigit v).toNat = v.toNat % 10 :=
  Nat.mod_eq_of_lt (by omega)

end

/-! ### The three digits in memory (R156) -/

section
variable (s : State) (i0 : Word) (v : Byte)

theorem State.storeDigits_readByte_zero : (s.storeDigits i0 v).readByte i0.toNat = hundredsDigit v := by
  simp [State.storeDigits_readByte]

theorem State.storeDigits_readByte_one : (s.storeDigits i0 v).readByte (i0.toNat + 1) = tensDigit v := by
  simp [State.storeDigits_readByte]

theorem State.storeDigits_readByte_two : (s.storeDigits i0 v).readByte (i0.toNat + 2) = onesDigit v := by
  simp [State.storeDigits_readByte]

theorem State.storeDigits_readByte_other {a : Nat} (h : a < i0.toNat ∨ i0.toNat + 2 < a) :
    (s.storeDigits i0 v).readByte a = s.readByte a := by
  rw [State.storeDigits_readByte, if_neg (by omega), if_neg (by omega), if_neg (by omega)]

theorem State.storeDigits_changesOnly : ChangesOnly [.MEM] s (s.storeDigits i0 v) := by
  rw [State.storeDigits_eq]
  exact s.setMEM_changesOnly _

end

/-! ### The register transfers (R157, R158) -/

section
variable {x : Nibble} {s t : State}

/-- LD [I], Vx leaves every byte outside the transfer's range alone (R157). -/
theorem readByte_of_exec_ldMemVx_other (h : exec (.ldMemVx x) s = .next t) {a : Nat}
    (ha : ∀ i : Nibble, i.toNat ≤ x.toNat → wrappedAddr s.I i.toNat ≠ a) : t.readByte a = s.readByte a := by
  cases h
  refine dumpRegs_read_other s.x s.I s.MEM _ a fun i hi => ?_
  have hnibble : (BitVec.ofNat 4 i).toNat = i := Nat.mod_eq_of_lt (by omega)
  exact hnibble ▸ ha (BitVec.ofNat 4 i) (by omega)

theorem reg_of_exec_ldVxMem (h : exec (.ldVxMem x) s = .next t) (i : Nibble) :
    t.reg i = if i.toNat ≤ x.toNat then s.readByte (wrappedAddr s.I i.toNat) else s.reg i := by
  cases h
  rw [State.setX_reg, loadRegs_get]
  exact if_congr Nat.lt_succ_iff rfl rfl

end

/-! ### The statements -/

/-- Settles O42: the digits are the quotients and remainders that add up to the register. -/
theorem decimalDigitsAreStoredOrNothing : Obligations.DecimalDigitsAreStoredOrNothing := by
  refine fun x => ⟨decode_classF_ofNat rfl rfl rfl, fun s => ⟨fun hI => ?_, exec_ldBVx_of_gt x⟩⟩
  refine ⟨_, exec_ldBVx_of_le x hI,
    ⟨(s.reg x).toNat / 100, (s.reg x).toNat / 10 % 10, (s.reg x).toNat % 10, by omega, by omega, by omega, ?_, ?_, ?_⟩,
    fun a ha => s.storeDigits_readByte_other _ _ ha, s.storeDigits_changesOnly _ _⟩
  · rw [State.storeDigits_readByte_zero, hundredsDigit_toNat]
  · rw [State.storeDigits_readByte_one, tensDigit_toNat]
  · rw [State.storeDigits_readByte_two, onesDigit_toNat]

/-- Settles O43. -/
theorem registerDumpStoresTheRange : Obligations.RegisterDumpStoresTheRange :=
  fun _ => ⟨decode_classF_ofNat rfl rfl rfl, fun s => ⟨_, rfl, fun _ hi => ⟨rfl, readByte_of_exec_ldMemVx rfl hi⟩,
    fun _ ha => readByte_of_exec_ldMemVx_other rfl ha, s.setMEM_changesOnly _⟩⟩

/-- Settles O44. -/
theorem registerLoadFillsTheRange : Obligations.RegisterLoadFillsTheRange := by
  refine fun x => ⟨decode_classF_ofNat rfl rfl rfl, fun s =>
    ⟨_, rfl, fun i hi => ?loaded, fun i hi => ?kept, s.setX_changesOnly _⟩⟩
  case loaded => exact (reg_of_exec_ldVxMem rfl i).trans (if_pos hi)
  case kept => exact (reg_of_exec_ldVxMem rfl i).trans (if_neg (Nat.not_le_of_lt hi))

/-- Settles O45: the load reads each register at the address where the dump left it. -/
theorem dumpThenLoadRestoresRegisters : Obligations.DumpThenLoadRestoresRegisters := by
  intro x s t t' u hdump hI hMEM hload i hi
  calc u.reg i
    _ = t'.readByte (wrappedAddr t'.I i.toNat) := (reg_of_exec_ldVxMem hload i).trans (if_pos hi)
    _ = t.readByte (wrappedAddr s.I i.toNat) := by rw [State.readByte, hI, hMEM, State.readByte]
    _ = s.reg i := readByte_of_exec_ldMemVx hdump hi

/-- Settles O39. -/
theorem timerTransfersMoveOneByte : Obligations.TimerTransfersMoveOneByte :=
  fun _ => ⟨decode_classF_ofNat rfl rfl rfl, decode_classF_ofNat rfl rfl rfl, decode_classF_ofNat rfl rfl rfl, fun s =>
    ⟨exec_result_only rfl, ⟨_, rfl, State.setDT_DT s _, s.setDT_changesOnly _⟩,
      ⟨_, rfl, State.setST_ST s _, s.setST_changesOnly _⟩⟩⟩

/-- Settles O40. -/
theorem indexAddWrapsWithoutFlag : Obligations.IndexAddWrapsWithoutFlag := by
  refine fun x => ⟨decode_classF_ofNat rfl rfl rfl, fun s => ⟨_, rfl, ?_, s.setI_changesOnly _⟩⟩
  rw [State.setI_I, BitVec.toNat_add, zextByte_toNat]

/-- Settles O41. -/
theorem glyphAddressUsesTheWholeRegister : Obligations.GlyphAddressUsesTheWholeRegister :=
  fun _ => ⟨decode_classF_ofNat rfl rfl rfl, fun s => ⟨_, rfl, glyphAddr_toNat _, s.setI_changesOnly _⟩⟩

end Sys2Proof.Machine
end

