-- ==== Sys2Proof/Proofs/Exceptions.lean ====
section
/-! PROOFS. Errors and the host operations (60_exceptions.md): what a STEP answers in each case, said once as `step_cases` (R181 to
R184), and the state from which the host goes on (R185). Then TICK over time (R173, R177), SET_KEY and CLEAR_DIRTY (R174, R175), and
the read accessors (R176). -/

namespace Sys2Proof.Machine

open Sys2Proof

/-! ### What a step answers (R181 to R184) -/

section
variable {s : State}

/-- The fetch phase leaves `PC - 2` as the address of the instruction that UnsupportedOpcode records (R82). -/
theorem State.fetched_PC_sub_two (s : State) : s.fetched.PC - 2 = s.PC := BitVec.add_sub_cancel _ _

theorem step_of_sys {nnn : Addr12} (hc : s.canFetch) (hi : decode s.fetchWord = .sys nnn) :
    step s = .fault (.unsupportedOpcode s.fetchWord s.PC s.fetched) := by
  calc step s
    _ = exec (.sys nnn) s.fetched := hi ▸ step_of_canFetch hc
    _ = .fault (.unsupportedOpcode s.fetchWord (s.fetched.PC - 2) s.fetched) := rfl
    _ = .fault (.unsupportedOpcode s.fetchWord s.PC s.fetched) := by rw [State.fetched_PC_sub_two]

theorem step_of_ldBVx_of_gt {x : Nibble} (hc : s.canFetch) (hi : decode s.fetchWord = .ldBVx x) (hI : 4093 < s.I.toNat) :
    step s = .fault (.addressOutOfBounds s.I s.fetched) := by
  calc step s
    _ = exec (.ldBVx x) s.fetched := hi ▸ step_of_canFetch hc
    _ = .fault (.addressOutOfBounds s.I s.fetched) := exec_ldBVx_of_gt x hI

/-- A step answers a next state or one of the three errors, each with its cause and the state it leaves. -/
theorem step_cases (s : State) :
    (∃ t, step s = .next t) ∨
    4094 < s.PC.toNat ∧ step s = .fault (.addressOutOfBounds s.PC s) ∨
    s.canFetch ∧ (∃ nnn, decode s.fetchWord = .sys nnn) ∧
      step s = .fault (.unsupportedOpcode s.fetchWord s.PC s.fetched) ∨
    s.canFetch ∧ (∃ x, decode s.fetchWord = .ldBVx x) ∧ 4093 < s.I.toNat ∧
      step s = .fault (.addressOutOfBounds s.I s.fetched) := by
  by_cases hc : s.canFetch
  · rcases exec_cases (decode s.fetchWord) s.fetched with hnext | ⟨⟨nnn, hi⟩, -⟩ | ⟨⟨x, hi⟩, hI, -⟩
    · exact .inl (step_of_canFetch hc ▸ hnext)
    · exact .inr (.inr (.inl ⟨hc, ⟨nnn, hi⟩, step_of_sys hc hi⟩))
    · exact .inr (.inr (.inr ⟨hc, ⟨x, hi⟩, hI, step_of_ldBVx_of_gt hc hi hI⟩))
  · exact .inr (.inl ⟨Nat.lt_of_not_le hc, step_of_not_canFetch hc⟩)

theorem step_ne_refused (s : State) (r : Refusal) : step s ≠ .refused r := by
  rcases step_cases s with ⟨t, h⟩ | ⟨-, h⟩ | ⟨-, -, h⟩ | ⟨-, -, -, h⟩ <;> simp [h]

/-- A step that answers a next state has met none of the causes of an error. -/
theorem no_error_of_step_next {t : State} (h : step s = .next t) :
    s.canFetch ∧ (∀ nnn, decode s.fetchWord ≠ .sys nnn) ∧ ((∃ x, decode s.fetchWord = .ldBVx x) → s.I.toNat ≤ 4093) := by
  have hc := (step_next h).1
  refine ⟨hc, fun nnn hi => ?_, fun ⟨x, hi⟩ => Nat.le_of_not_lt fun hI => ?_⟩
  · cases h.symm.trans (step_of_sys hc hi)
  · cases h.symm.trans (step_of_ldBVx_of_gt hc hi hI)

/-! ### STEP as the host goes on from it (R185) -/

theorem perform_step (s : State) : perform .step s = stepOp s := rfl

/-- The state after the fetch phase fetches the word two bytes further (R172). -/
theorem step_fetched (h : s.PC.toNat + 2 ≤ 4094) : step s.fetched =
    exec (decode (s.readWord (s.PC.toNat + 2))) { s with IR := s.readWord (s.PC.toNat + 2), PC := s.PC + 4 } := by
  have hPC : s.fetched.PC.toNat = s.PC.toNat + 2 := State.fetched_PC_toNat (by omega)
  have hword : s.fetched.fetchWord = s.readWord (s.PC.toNat + 2) := congrArg s.readWord hPC
  have hnext : s.fetched.PC + 2 = s.PC + 4 := BitVec.add_assoc s.PC 2 2
  rw [step_of_canFetch (hPC.trans_le h), s.fetched.fetched_eq, hnext, hword]
  rfl

/-- What the host finds after an execute-phase error, SYS or LD B, Vx alike: the state of the fetch phase, from which it may
step on (R184, R185). -/
theorem perform_step_of_execute_error {f : Fault} (hc : s.canFetch) (h : step s = .fault f) (hleft : f.left = s.fetched) :
    (perform .step s).2 = f.result ∧
    (perform .step s).1.PC.toNat = s.PC.toNat + 2 ∧ (perform .step s).1.IR = s.fetchWord ∧
    ChangesOnly [.IR, .PC] s (perform .step s).1 ∧
    (s.PC.toNat + 2 ≤ 4094 → step (perform .step s).1 =
      exec (decode (s.readWord (s.PC.toNat + 2))) { s with IR := s.readWord (s.PC.toNat + 2), PC := s.PC + 4 }) := by
  rw [perform_step, stepOp_of_fault h, hleft]
  exact ⟨rfl, State.fetched_PC_toNat hc, rfl, s.fetched_changesOnly, step_fetched⟩

end

/-! ### An operation that changes nothing, repeated (R171) -/

theorem runSchedule_replicate_of_fixed {o : HostOp} {s : State} {r : OpResult} (h : perform o s = (s, r)) (n : Nat) :
    runSchedule (List.replicate n o) s = (s, List.replicate n r) := by
  induction n with
  | zero => rfl
  | succ n ih => simp [List.replicate_succ, runSchedule, h, ih]

/-! ### TICK (R173, R177) -/

theorem countDown_toNat (v : Byte) : (countDown v).toNat = v.toNat - 1 := by
  unfold countDown
  split
  case isTrue h => rw [h]; rfl
  case isFalse h =>
    have hpos : v.toNat ≠ 0 := fun h0 => h (BitVec.eq_of_toNat_eq h0)
    exact BitVec.toNat_sub_of_le (BitVec.le_def.mpr (Nat.one_le_iff_ne_zero.mpr hpos))

section
variable {s : State}

theorem tickOp_DT_toNat (s : State) : (tickOp s).1.DT.toNat = s.DT.toNat - 1 := countDown_toNat s.DT

theorem tickOp_ST_toNat (s : State) : (tickOp s).1.ST.toNat = s.ST.toNat - 1 := countDown_toNat s.ST

theorem tickOp_ST_of_succ {n : Nat} (h : s.ST.toNat = n + 1) : (tickOp s).1.ST.toNat = n := by
  rw [tickOp_ST_toNat, h, Nat.add_sub_cancel]

theorem tickOp_changesOnly (s : State) : ChangesOnly [.DT, .ST] s (tickOp s).1 :=
  (s.setDT_changesOnly _).trans (State.setST_changesOnly _ _)

theorem tickOp_result_of_one (h : s.ST.toNat = 1) : (tickOp s).2 = .soundElapsed := if_pos (BitVec.eq_of_toNat_eq h)

theorem tickOp_result_of_ne_one (h : s.ST.toNat ≠ 1) : (tickOp s).2 = .none := if_neg fun h1 => h (by rw [h1]; rfl)

/-- The first of several TICKs answers by the state, and the rest start from the timers it left. -/
theorem ticks_succ (n : Nat) (s : State) : (runSchedule (List.replicate (n + 1) .tick) s).2 =
    (tickOp s).2 :: (runSchedule (List.replicate n .tick) (tickOp s).1).2 := rfl

/-- A sound timer at 0 stays there and is silent. -/
theorem ticks_silent_of_ST_zero (m : Nat) (h : s.ST.toNat = 0) :
    (runSchedule (List.replicate m .tick) s).2 = List.replicate m .none := by
  induction m generalizing s with
  | zero => rfl
  | succ m ih =>
    have hST : (tickOp s).1.ST.toNat = 0 := by rw [tickOp_ST_toNat, h]
    rw [ticks_succ, tickOp_result_of_ne_one (by omega), ih hST, List.replicate_succ]

/-- A sound timer at `n + 1` is silent for `n` TICKs, elapses on the next one and is silent from then on. -/
theorem ticks_of_ST_succ (n m : Nat) (h : s.ST.toNat = n + 1) :
    (runSchedule (List.replicate (n + 1 + m) .tick) s).2 =
      List.replicate n .none ++ .soundElapsed :: List.replicate m .none := by
  induction n generalizing s with
  | zero =>
    rw [Nat.add_right_comm, ticks_succ, tickOp_result_of_one h, Nat.zero_add, ticks_silent_of_ST_zero m (tickOp_ST_of_succ h)]
    rfl
  | succ n ih =>
    rw [Nat.add_right_comm, ticks_succ, tickOp_result_of_ne_one (by omega), ih (tickOp_ST_of_succ h)]
    rfl

end

/-! ### SET_KEY (R174) -/

theorem State.setKey_changesOnly (s : State) (k : Nibble) (p : Bool) : ChangesOnly [.KEY] s (s.setKey k p) := by
  intro e he
  cases e
  case KEY => simp at he
  all_goals simp [Element.Same]

theorem State.key_setKey_other (s : State) {k j : Nibble} (p : Bool) (h : j ≠ k) : (s.setKey k p).key j = s.key j := by
  rw [State.key_setKey, if_neg h.symm]

/-! ### The read accessors (R176) -/

/-- The six accessors of R176. -/
def accessors : List HostOp := [.framebuffer, .isDirty, .getPC, .getI, .getSP, .getDT]

theorem perform_of_mem_accessors {o : HostOp} (h : o ∈ accessors) (s : State) : (perform o s).1 = s := by
  cases o
  case reset | load | step | tick | setKey | clearDirty => simp [accessors] at h
  all_goals rfl

/-- A schedule ends in the same state without its accessors. -/
theorem runSchedule_filter_accessors (os : List HostOp) (s : State) :
    (runSchedule os s).1 = (runSchedule (os.filter fun o => !accessors.contains o) s).1 := by
  induction os generalizing s with
  | nil => rfl
  | cons o os ih =>
    by_cases ho : o ∈ accessors
    · calc (runSchedule os (perform o s).1).1
        _ = (runSchedule os s).1 := by rw [perform_of_mem_accessors ho]
        _ = _ := by rw [ih, List.filter_cons_of_neg (by simpa using ho)]
    · rw [List.filter_cons_of_pos (by simpa using ho)]
      exact ih (perform o s).1

/-! ### The statements -/

/-- Settles O8: the three errors of `step_cases` are the negations of the three conditions. -/
theorem stepSucceedsExactlyWithoutError : Obligations.StepSucceedsExactlyWithoutError := by
  refine fun s => ⟨step_ne_refused s, fun ⟨_, h⟩ => no_error_of_step_next h, fun ⟨hPC, hsys, hldB⟩ => ?_⟩
  rcases step_cases s with hnext | ⟨hgt, -⟩ | ⟨-, ⟨nnn, hi⟩, -⟩ | ⟨-, hi, hI, -⟩
  · exact hnext
  · omega
  · exact absurd hi (hsys nnn)
  · exact absurd (hldB hi) (Nat.not_le_of_lt hI)

/-- Settles O9, error by error. -/
theorem everyErrorIsPrecise : Obligations.EveryErrorIsPrecise := by
  intro s f hf
  rcases step_cases s with ⟨t, h⟩ | ⟨hgt, h⟩ | ⟨hc, ⟨nnn, hi⟩, h⟩ | ⟨hc, ⟨x, hi⟩, hI, h⟩ <;> cases hf.symm.trans h
  · exact .inl ⟨hgt, rfl⟩
  · exact .inr ⟨hc, _, s.fetched_eq, .inl ⟨nnn, hi, rfl⟩⟩
  · exact .inr ⟨hc, _, s.fetched_eq, .inr ⟨x, hi, hI, rfl⟩⟩

/-- Settles O51, by induction on the value of the sound timer. -/
theorem soundElapsesOnceOnTheNthTick : Obligations.SoundElapsesOnceOnTheNthTick := by
  intro s m hST
  have hpred : s.ST.toNat - 1 + 1 = s.ST.toNat := Nat.sub_add_cancel hST
  rw [← ticks_of_ST_succ (s.ST.toNat - 1) m hpred.symm, hpred]

/-- Settles O53: an accessor leaves the state to the operations that follow it. -/
theorem accessorsArePure : Obligations.AccessorsArePure :=
  ⟨fun _ => ⟨rfl, rfl, rfl, rfl, rfl, rfl⟩, runSchedule_filter_accessors⟩

/-- Settles O56: a SYS leaves the state of the fetch phase. -/
theorem hostStepsOnAfterUnsupportedOpcode : Obligations.HostStepsOnAfterUnsupportedOpcode := by
  intro s nnn hc hi
  obtain ⟨hresult, hafter⟩ := perform_step_of_execute_error hc (step_of_sys hc hi) rfl
  exact ⟨hresult, congrArg OpResult.code hresult, hafter⟩

/-- Settles O57: an LD B, Vx outside memory leaves the state of the fetch phase. -/
theorem hostStepsOnAfterDigitStoreError : Obligations.HostStepsOnAfterDigitStoreError := by
  intro s x hc hi hI
  obtain ⟨hresult, hafter⟩ := perform_step_of_execute_error hc (step_of_ldBVx_of_gt hc hi hI) rfl
  exact ⟨hresult, congrArg OpResult.code hresult, hafter⟩

/-- Settles O58: a STEP whose fetch fails is a fixed point of the host's STEP. -/
theorem hostStepAnswersTheStep : Obligations.HostStepAnswersTheStep := by
  intro s
  constructor
  · intro t h
    rw [perform_step, stepOp_of_next h]
    exact ⟨rfl, rfl⟩
  · intro hPC
    have hfixed : perform .step s = (s, .addressOutOfBounds s.PC) :=
      stepOp_of_fault (step_of_not_canFetch (Nat.not_le_of_lt hPC))
    exact ⟨hfixed, by rw [hfixed]; rfl, runSchedule_replicate_of_fixed hfixed⟩

/-- Settles O7. -/
theorem fetchOutsideMemoryChangesNothing : Obligations.FetchOutsideMemoryChangesNothing :=
  fun _ hPC => step_of_not_canFetch (Nat.not_le_of_lt hPC)

/-- Settles O50. -/
theorem tickCountsDownToZero : Obligations.TickCountsDownToZero := fun s =>
  ⟨tickOp_DT_toNat s, tickOp_ST_toNat s, tickOp_result_of_one, tickOp_result_of_ne_one, tickOp_changesOnly s⟩

/-- Settles O52. -/
theorem keyAndDirtyOperationsWriteOneElement : Obligations.KeyAndDirtyOperationsWriteOneElement := fun s k p =>
  ⟨rfl, s.key_setKey_same k p, fun _ hj => s.key_setKey_other p hj, s.setKey_changesOnly k p, rfl, rfl,
    s.setDirty_changesOnly false⟩

end Sys2Proof.Machine
end

