-- ==== Sys2Proof/Proofs/ResetHazards.lean ====
section
/-! PROOFS. Loading a program and ending one (70_reset_and_hazards.md): what LOAD leaves in memory (R201, R202), that a word placed
where the next STEP fetches is the instruction it runs (R42, R204), and the jump to itself as a fixed point of STEP (R205). -/

namespace Sys2Proof.Machine

open Sys2Proof

/-! ### The jump to itself (R205) -/

section
variable {s : State}

/-- The twelve bits of a jump hold every address inside memory. -/
theorem setWidth_12_toNat {v : Word} (h : v.toNat < 4096) : (v.setWidth 12).toNat = v.toNat := by
  rw [BitVec.toNat_setWidth, Nat.mod_eq_of_lt h]

theorem zextAddr_setWidth {v : Word} (h : v.toNat < 4096) : zextAddr (v.setWidth 12) = v := by
  apply BitVec.eq_of_toNat_eq
  rw [zextAddr_toNat, setWidth_12_toNat h]

theorem decode_jumpTo {v : Word} (h : v.toNat < 4096) : decode (BitVec.ofNat 16 (0x1000 + v.toNat)) = .jp (v.setWidth 12) := by
  rw [← (jumpGoesToItsAddress (v.setWidth 12)).1, setWidth_12_toNat h]

theorem step_of_jp {nnn : Addr12} (hc : s.canFetch) (hi : decode s.fetchWord = .jp nnn) :
    step s = .next ((s.setIR s.fetchWord).setPC (zextAddr nnn)) := by
  calc step s
    _ = exec (.jp nnn) s.fetched := hi ▸ step_of_canFetch hc
    _ = .next ((s.setIR s.fetchWord).setPC (zextAddr nnn)) := rfl

/-- The jump puts `PC` back where the fetch found it, so that only the fetched word is new. -/
theorem step_of_selfJump (hc : s.canFetch) (hw : s.fetchWord = BitVec.ofNat 16 (0x1000 + s.PC.toNat)) :
    step s = .next (s.setIR s.fetchWord) := by
  have hlt : s.PC.toNat < 4096 := by omega
  rw [step_of_jp hc (hw ▸ decode_jumpTo hlt), zextAddr_setWidth hlt]
  rfl

end

/-! ### LOAD (R201, R202) -/

section
variable {bytes : List Byte}

theorem perform_load (bytes : List Byte) (s : State) : perform (.load bytes) s = loadOp bytes := rfl

/-- Memory after a LOAD that fits: the image from 0x200 on, elsewhere the reset contents. -/
theorem loadOp_readByte (hfit : bytes.length ≤ 3584) (a : Nat) : (loadOp bytes).1.readByte a =
    if h : 0x200 ≤ a ∧ a < 0x200 + bytes.length then bytes[a - 0x200] else State.reset.readByte a := by
  rw [loadOp_of_fits hfit, State.setMEM_readByte]
  exact Memory.read_writeList State.reset.MEM 0x200 a bytes

theorem loadOp_readByte_image (hfit : bytes.length ≤ 3584) {j : Nat} (hj : j < bytes.length) :
    (loadOp bytes).1.readByte (0x200 + j) = bytes[j] := by
  rw [loadOp_readByte hfit, dif_pos (by omega)]
  simp only [Nat.add_sub_cancel_left]

theorem loadOp_readByte_outside (hfit : bytes.length ≤ 3584) {a : Nat} (ha : a < 0x200 ∨ 0x200 + bytes.length ≤ a) :
    (loadOp bytes).1.readByte a = State.reset.readByte a := by
  rw [loadOp_readByte hfit, dif_neg (by omega)]

theorem loadOp_changesOnly (hfit : bytes.length ≤ 3584) : ChangesOnly [.MEM] State.reset (loadOp bytes).1 := by
  rw [loadOp_of_fits hfit]
  exact State.setMEM_changesOnly _ _

end

/-! ### A word stored in memory (R8, R42) -/

section
variable (s : State) (a : Nat) (w : Word)

@[simp] theorem State.writeWord_PC : (s.writeWord a w).PC = s.PC := rfl

theorem State.readByte_writeWord (b : Nat) : (s.writeWord a w).readByte b =
    if a + 1 = b then lowByte w else if a = b then highByte w else s.readByte b := by
  rw [State.writeWord, State.readByte_writeByte, State.readByte_writeByte]

@[simp] theorem State.readWord_writeWord : (s.writeWord a w).readWord a = w := by
  simp [State.readWord, State.readByte_writeWord]

theorem State.writeWord_changesOnly : ChangesOnly [.MEM] s (s.writeWord a w) :=
  s.setMEM_changesOnly ((s.MEM.write a (highByte w)).write (a + 1) (lowByte w))

end

/-! ### A word placed where the next STEP fetches (R201, R204) -/

section
variable (s : State) (w : Word)

/-- The state after the fetch phase, once `w` is placed at `PC`. -/
def State.fetchedPlaced : State := (s.writeWord s.PC.toNat w).fetched

@[simp] theorem State.fetchWord_writeWord : (s.writeWord s.PC.toNat w).fetchWord = w :=
  s.readWord_writeWord s.PC.toNat w

@[simp] theorem State.fetchedPlaced_IR : (s.fetchedPlaced w).IR = w := s.fetchWord_writeWord w

@[simp] theorem State.fetchedPlaced_PC : (s.fetchedPlaced w).PC = s.PC + 2 := rfl

theorem State.fetchedPlaced_changesOnly : ChangesOnly [.MEM, .IR, .PC] s (s.fetchedPlaced w) :=
  (s.writeWord_changesOnly _ w).trans (State.fetched_changesOnly _)

end

section
variable {s : State}

/-- Only the two bytes before the new `PC` change. -/
theorem State.fetchedPlaced_readByte_other (hc : s.canFetch) (w : Word) {b : Nat}
    (hhigh : b + 2 ≠ (s.fetchedPlaced w).PC.toNat) (hlow : b + 1 ≠ (s.fetchedPlaced w).PC.toNat) :
    (s.fetchedPlaced w).readByte b = s.readByte b := by
  rw [State.fetchedPlaced_PC, toNat_add_two (by omega)] at hhigh hlow
  calc (s.fetchedPlaced w).readByte b
    _ = (s.writeWord s.PC.toNat w).readByte b := rfl
    _ = s.readByte b := by rw [State.readByte_writeWord, if_neg (by omega), if_neg (by omega)]

theorem step_writeWord (hc : s.canFetch) (w : Word) :
    step (s.writeWord s.PC.toNat w) = exec (decode w) (s.fetchedPlaced w) := by
  have hc' : (s.writeWord s.PC.toNat w).canFetch := hc
  rw [step_of_canFetch hc', State.fetchWord_writeWord, State.fetchedPlaced]

variable {w : Nat}

theorem tableWord_16 (hw : w < 65536) : tableWord 16 w = BitVec.ofNat 16 w := congrArg _ (Nat.mod_eq_of_lt hw)

theorem decodeTableWord_16 (hw : w < 65536) : decodeTableWord 16 w = some (decode (BitVec.ofNat 16 w)) := by
  rw [decodeTableWord, tableWord_16 hw, decodeBytes_pair, wordOfBytes_high_low]

theorem step_withFetchWord (hw : w < 65536) (hc : s.canFetch) : step (s.withFetchWord 16 w) =
    exec (decode (BitVec.ofNat 16 w)) (s.fetchedPlaced (BitVec.ofNat 16 w)) := by
  rw [State.withFetchWord, if_neg (by omega), tableWord_16 hw, step_writeWord hc]

/-- The entry point is an address a fetch can use (R204). -/
theorem State.canFetch_at_entry (s : State) : (s.setPC 0x200).canFetch :=
  show (0x200 : Word).toNat ≤ 4094 by decide

/-- Where `PC` holds no address a fetch can use, the word is placed at the entry point. -/
theorem step_withFetchWord_of_not_canFetch (hw : w < 65536) (hc : ¬ s.canFetch) : step (s.withFetchWord 16 w) =
    exec (decode (BitVec.ofNat 16 w)) ((s.setPC 0x200).fetchedPlaced (BitVec.ofNat 16 w)) := by
  rw [State.withFetchWord, if_pos (by omega), tableWord_16 hw, ← step_writeWord s.canFetch_at_entry]
  rfl

end

/-! ### The statements -/

/-- Settles O48: the state after the first step still meets the condition of a jump to itself. -/
theorem selfJumpIsAFixedPoint : Obligations.SelfJumpIsAFixedPoint :=
  fun s hc hw => ⟨step_of_selfJump hc hw, step_of_selfJump (s := s.setIR s.fetchWord) hc hw⟩

/-- Settles O55: LOAD's check of the whole length separates the two cases. -/
theorem loadPlacesTheImageOrNothing : Obligations.LoadPlacesTheImageOrNothing := by
  intro bytes s
  rw [perform_load]
  exact ⟨fun hfit => ⟨congrArg Prod.snd (loadOp_of_fits hfit), fun _ hj => loadOp_readByte_image hfit hj,
    fun _ ha => loadOp_readByte_outside hfit ha, loadOp_changesOnly hfit⟩, loadOp_of_too_large⟩

/-- Settles O49: the word is placed at `PC`, or, where no fetch is possible there, in the state whose `PC` is the entry point. -/
theorem placedWordRunsNext : Obligations.PlacedWordRunsNext := by
  intro s w hw
  refine ⟨decodeTableWord_16 hw, ?_⟩
  by_cases hc : s.canFetch
  · exact ⟨_, step_withFetchWord hw hc, s.fetchedPlaced_IR _, fun _ => rfl, fun hgt => absurd hc (Nat.not_le_of_lt hgt),
      fun _ => State.fetchedPlaced_readByte_other hc _, (s.fetchedPlaced_changesOnly _).mono (by decide)⟩
  · exact ⟨_, step_withFetchWord_of_not_canFetch hw hc, State.fetchedPlaced_IR _ _, fun hle => absurd hle hc, fun _ => rfl,
      fun _ => State.fetchedPlaced_readByte_other s.canFetch_at_entry _,
      ((s.setPC_changesOnly _).trans (State.fetchedPlaced_changesOnly _ _)).mono (by decide)⟩

end Sys2Proof.Machine
end
